-- ==== Sys2Proof/Word.lean ====
section
/-! DEFINITION. The two word types of the spec (00_scope.md section 5): the 8-bit `u8` and the 16-bit `u16`. -/

namespace Sys2Proof

/-- `u8`: a data register, a memory cell, an operand byte (00_scope.md section 4, `XLEN`). -/
abbrev Byte := BitVec 8

/-- `u16`: an address, the program counter (00_scope.md section 4, `ALEN`). -/
abbrev Word := BitVec 16

end Sys2Proof
end

