-- ==== Sys2Proof/Syntax.lean ====
section
/-! DEFINITION. The decoded instruction: Opcode and AddressMode tags (30_encoding.md R39, 40_execution_cycle.md R52) and
one constructor of `Instr` for every (Opcode, AddressMode) pair a decode table can name. -/

namespace Sys2Proof

/-- The closed Opcode enumeration {`LDA`, `BRK`} (40_execution_cycle.md R52). -/
inductive Opcode where
  | lda
  | brk
  deriving DecidableEq, Repr

/-- The seven addressing modes of 30_encoding.md R39. -/
inductive AddressMode where
  | implicit
  | accumulator
  | immediate
  | zeroPage
  | zeroPageX
  | zeroPageY
  | relative
  deriving DecidableEq, Repr

/-- The decoded `Instruction` record (30_encoding.md R38, R40) as one constructor per (Opcode, AddressMode) pair, with the
operand byte the mode counts. The first four are the rows of spec/opcode_table.json. The others have no opcode byte in any
table of the spec: the open parameter `DECODE_EXT` (R44) reaches them. -/
inductive Instr where
  /-- (`BRK`, Implicit), 0x00: 42_system.md R76. Its reserved byte is in no operand slot (R42). -/
  | brk
  /-- (`LDA`, Immediate), 0xA9: 41_load.md R69. -/
  | ldaImmediate (b : Byte)
  /-- (`LDA`, ZeroPage), 0xA5 of `DECODE_EXT_LDA_ZP`: 41_load.md R70. -/
  | ldaZeroPage (b : Byte)
  /-- (`LDA`, ZeroPageX), 0xB5 of `DECODE_EXT_LDA_ZP`: 41_load.md R71. -/
  | ldaZeroPageX (b : Byte)
  /-- (`LDA`, ZeroPageY): 41_load.md R72. -/
  | ldaZeroPageY (b : Byte)
  /-- (`LDA`, Accumulator): 41_load.md R73. -/
  | ldaAccumulator
  /-- (`LDA`, Implicit), a pair without a value: 41_load.md R74. -/
  | ldaImplicit
  /-- (`LDA`, Relative), a pair without a value: 41_load.md R74. -/
  | ldaRelative (b : Byte)
  /-- (`BRK`, Accumulator), a pair without a handler meaning: 42_system.md R77. -/
  | brkAccumulator
  /-- (`BRK`, Immediate), a pair without a handler meaning: 42_system.md R77. -/
  | brkImmediate (b : Byte)
  /-- (`BRK`, ZeroPage), a pair without a handler meaning: 42_system.md R77. -/
  | brkZeroPage (b : Byte)
  /-- (`BRK`, ZeroPageX), a pair without a handler meaning: 42_system.md R77. -/
  | brkZeroPageX (b : Byte)
  /-- (`BRK`, ZeroPageY), a pair without a handler meaning: 42_system.md R77. -/
  | brkZeroPageY (b : Byte)
  /-- (`BRK`, Relative), a pair without a handler meaning: 42_system.md R77. -/
  | brkRelative (b : Byte)
  deriving DecidableEq, Repr

/-- The Opcode tag of the record. -/
def Instr.opcode : Instr → Opcode
  | .brk => .brk
  | .ldaImmediate _ => .lda
  | .ldaZeroPage _ => .lda
  | .ldaZeroPageX _ => .lda
  | .ldaZeroPageY _ => .lda
  | .ldaAccumulator => .lda
  | .ldaImplicit => .lda
  | .ldaRelative _ => .lda
  | .brkAccumulator => .brk
  | .brkImmediate _ => .brk
  | .brkZeroPage _ => .brk
  | .brkZeroPageX _ => .brk
  | .brkZeroPageY _ => .brk
  | .brkRelative _ => .brk

/-- The AddressMode tag of the record. -/
def Instr.mode : Instr → AddressMode
  | .brk => .implicit
  | .ldaImmediate _ => .immediate
  | .ldaZeroPage _ => .zeroPage
  | .ldaZeroPageX _ => .zeroPageX
  | .ldaZeroPageY _ => .zeroPageY
  | .ldaAccumulator => .accumulator
  | .ldaImplicit => .implicit
  | .ldaRelative _ => .relative
  | .brkAccumulator => .accumulator
  | .brkImmediate _ => .immediate
  | .brkZeroPage _ => .zeroPage
  | .brkZeroPageX _ => .zeroPageX
  | .brkZeroPageY _ => .zeroPageY
  | .brkRelative _ => .relative

/-- The first optional operand slot (30_encoding.md R40): present exactly in the modes with one operand byte. -/
def Instr.operand1 : Instr → Option Byte
  | .brk => none
  | .ldaImmediate b => some b
  | .ldaZeroPage b => some b
  | .ldaZeroPageX b => some b
  | .ldaZeroPageY b => some b
  | .ldaAccumulator => none
  | .ldaImplicit => none
  | .ldaRelative b => some b
  | .brkAccumulator => none
  | .brkImmediate b => some b
  | .brkZeroPage b => some b
  | .brkZeroPageX b => some b
  | .brkZeroPageY b => some b
  | .brkRelative b => some b

/-- The second optional operand slot: no mode has two operand bytes, so it is always absent (90_conflicts.md C3). -/
def Instr.operand2 (_ : Instr) : Option Byte := none

end Sys2Proof
end

