-- ==== Sys2Proof/Config.lean ====
section
/-! DEFINITION. What is fixed for one machine: the constants of 00_scope.md section 4 and the open parameters of the spec
(`RESET_A`, `RESET_X`, `RESET_Y`, `DECODE_EXT`). The spec leaves no value undefined after an instruction, so there is no
free value here. -/

namespace Sys2Proof

/-- One entry of a decode table: opcode byte -> (Opcode, AddressMode) (30_encoding.md R40, R44). -/
structure DecodeEntry where
  byte   : Byte
  opcode : Opcode
  mode   : AddressMode
  deriving DecidableEq, Repr

/-- The open parameters of one machine (00_scope.md section 4): the reset values of `A`, `X`, `Y` (10_state.md R16) and
`DECODE_EXT` (30_encoding.md R44). -/
structure Config where
  resetA    : Byte
  resetX    : Byte
  resetY    : Byte
  decodeExt : List DecodeEntry
  deriving DecidableEq, Repr

/-- The instance `State.reset` uses: `DECODE_EXT` empty, the spec's default (30_encoding.md R44); `RESET_A`, `RESET_X` and
`RESET_Y` are 0x00. DESIGN CHOICE (log entry 1, unsafe): the spec leaves the three reset values open. -/
def Config.default : Config :=
  { resetA := 0x00, resetX := 0x00, resetY := 0x00, decodeExt := [] }

/-- First address of program RAM and the reset `pc` (20_memory.md R21, 10_state.md R13). -/
def Config.programRamStart : Word := 0x0200

/-- `PROGRAM_RAM_SIZE`, 0xFFFE - 0x0200 (20_memory.md R30). -/
def Config.programRamSize : Nat := 65022

/-- First address of the stack page (20_memory.md R21). -/
def Config.stackBase : Word := 0x0100

/-- The interrupt-vector slot's low cell (20_memory.md R21, R25). -/
def Config.ivec : Word := 0xFFFE

/-- `RESET_SP`, the top of the stack page (10_state.md R14, decision D4; log entry 6). -/
def Config.resetSp : Byte := 0xFF

/-- What a cell nothing has written reads as: memory is zero-filled at construction (10_state.md R17). -/
def Config.unlistedByte : Byte := 0x00

end Sys2Proof
end

