-- ==== Sys2Proof/WellFormed.lean ====
section
/-! DEFINITION. The checks on decode tables and on instructions. An `Instr` carries exactly the operand bytes its mode
counts, so the one thing left to check of it is that a decode table names its (Opcode, AddressMode) pair. -/

namespace Sys2Proof

/-- No entry of the table has the opcode byte `o`. -/
def DecodeExt.free (o : Byte) : List DecodeEntry → Bool
  | [] => true
  | e :: t => e.byte != o && DecodeExt.free o t

/-- A finite map: no opcode byte stands twice. -/
def DecodeExt.keysDistinct : List DecodeEntry → Bool
  | [] => true
  | e :: t => DecodeExt.free e.byte t && DecodeExt.keysDistinct t

/-- `DECODE_EXT` is a finite map from opcode bytes other than 0x00 and 0xA9 (30_encoding.md R44). -/
def DecodeExt.wf (ext : List DecodeEntry) : Bool :=
  DecodeExt.free 0x00 ext && DecodeExt.free 0xA9 ext && DecodeExt.keysDistinct ext

/-- The table names the instruction's (Opcode, AddressMode) pair, so some opcode byte decodes to it. -/
def Instr.wellFormedIn : List DecodeEntry → Instr → Bool
  | [], _ => false
  | e :: t, i => (e.opcode == i.opcode && e.mode == i.mode) || Instr.wellFormedIn t i

end Sys2Proof
end

