-- ==== Sys2Proof/Decode.lean ====
section
/-! DEFINITION. Decode tables, `decode`, the encoder, and the reading of the opcode table's words (30_encoding.md). -/

namespace Sys2Proof

/-- Operand bytes per mode (30_encoding.md R39). -/
def AddressMode.operandBytes : AddressMode → Nat
  | .implicit => 0
  | .accumulator => 0
  | .immediate => 1
  | .zeroPage => 1
  | .zeroPageX => 1
  | .zeroPageY => 1
  | .relative => 1

/-- `len(instr)`: 1 + the number of operand bytes of the mode (30_encoding.md R46). `BRK` does not use it. -/
def AddressMode.len (m : AddressMode) : Nat := 1 + m.operandBytes

/-- `DECODE_BASE`: 0x00 is (`BRK`, Implicit) (R42, decision D7, log entry 9), 0xA9 is (`LDA`, Immediate) (R41). -/
def decodeBase : List DecodeEntry :=
  [⟨0x00, .brk, .implicit⟩, ⟨0xA9, .lda, .immediate⟩]

/-- `DECODE_EXT_LDA_ZP`, the two extension rows of spec/opcode_table.json (30_encoding.md R44): not part of the base
machine. PRESUMED (93_implementation_defined.md G3, general knowledge; log entry 2): off at reset. -/
def decodeExtLdaZp : List DecodeEntry :=
  [⟨0xA5, .lda, .zeroPage⟩, ⟨0xB5, .lda, .zeroPageX⟩]

/-- The decode table: `DECODE_BASE` extended by `DECODE_EXT` (30_encoding.md R40). The base entries come first, so an
extension cannot change them. -/
def decodeTable (ext : List DecodeEntry) : List DecodeEntry := decodeBase ++ ext

/-- The table's entry for an opcode byte. -/
def lookupOpcode : List DecodeEntry → Byte → Option (Opcode × AddressMode)
  | [], _ => none
  | e :: t, o => if e.byte = o then some (e.opcode, e.mode) else lookupOpcode t o

/-- The record `decode` returns for a pair: the operand slot holds `b1` where the mode counts one operand byte. -/
def Instr.ofPair (op : Opcode) (m : AddressMode) (b1 : Byte) : Instr :=
  match op, m with
  | .lda, .implicit => .ldaImplicit
  | .lda, .accumulator => .ldaAccumulator
  | .lda, .immediate => .ldaImmediate b1
  | .lda, .zeroPage => .ldaZeroPage b1
  | .lda, .zeroPageX => .ldaZeroPageX b1
  | .lda, .zeroPageY => .ldaZeroPageY b1
  | .lda, .relative => .ldaRelative b1
  | .brk, .implicit => .brk
  | .brk, .accumulator => .brkAccumulator
  | .brk, .immediate => .brkImmediate b1
  | .brk, .zeroPage => .brkZeroPage b1
  | .brk, .zeroPageX => .brkZeroPageX b1
  | .brk, .zeroPageY => .brkZeroPageY b1
  | .brk, .relative => .brkRelative b1

/-- What `decode` answers: an instruction, or the rejection by name (30_encoding.md R40, R43). -/
inductive DecodeResult where
  | instr (i : Instr)
  /-- The opcode byte is no key of the decode table. -/
  | unimplementedOpcode (byte : Byte)
  deriving DecidableEq, Repr

/-- `decode(o, b1, b2)` under the table extended by `ext` (30_encoding.md R40, R49). The third byte is never used, since no
mode has two operand bytes (90_conflicts.md C3). -/
def decode (ext : List DecodeEntry) (o b1 _b2 : Byte) : DecodeResult :=
  match lookupOpcode (decodeTable ext) o with
  | some (op, m) => .instr (Instr.ofPair op m b1)
  | none => .unimplementedOpcode o

/-- `decode` on the first three bytes of a list, in ascending address order; a byte the list does not hold reads 0x00. -/
def decodeBytes (ext : List DecodeEntry) (bs : List Byte) : DecodeResult :=
  decode ext (bs.getD 0 0x00) (bs.getD 1 0x00) (bs.getD 2 0x00)

/-- The first opcode byte a table gives a pair. -/
def opcodeByte : List DecodeEntry → Opcode → AddressMode → Option Byte
  | [], _, _ => none
  | e :: t, op, m => if e.opcode = op ∧ e.mode = m then some e.byte else opcodeByte t op m

/-- The bytes after the opcode byte: the operand byte, or the reserved byte of `BRK`, written 0x00 (30_encoding.md R38,
formats `F0`, `F1`, `FB`; R48). -/
def Instr.tailBytes : Instr → List Byte
  | .brk => [0x00]
  | .ldaImmediate b => [b]
  | .ldaZeroPage b => [b]
  | .ldaZeroPageX b => [b]
  | .ldaZeroPageY b => [b]
  | .ldaAccumulator => []
  | .ldaImplicit => []
  | .ldaRelative b => [b]
  | .brkAccumulator => []
  | .brkImmediate b => [b]
  | .brkZeroPage b => [b]
  | .brkZeroPageX b => [b]
  | .brkZeroPageY b => [b]
  | .brkRelative b => [b]

/-- The bytes of an instruction in ascending address order, where the table names its pair. -/
def encode (table : List DecodeEntry) (i : Instr) : Option (List Byte) :=
  match opcodeByte table i.opcode i.mode with
  | some o => some (o :: i.tailBytes)
  | none => none

/-- Byte `k` of a word of the opcode table that has `nbits` bits. spec/opcode_table.json puts the byte at `pc` in the
word's HIGHEST eight bits ("bits 15..8 = byte at pc"), the next byte below it; bytes past the word are 0x00. DEDUCED from
the table's `bit_order` and `fixed` (log entry 3). -/
def tableByte (nbits w k : Nat) : Byte :=
  if 8 * (k + 1) ≤ nbits then BitVec.ofNat 8 (w >>> (nbits - 8 * (k + 1))) else 0x00

/-- The instruction of a word of the opcode table. The table lists the `DECODE_EXT_LDA_ZP` rows beside the base rows, so
its words are read under that extension (log entry 3). -/
def decodeTableWord (nbits w : Nat) : Option Instr :=
  match decode decodeExtLdaZp (tableByte nbits w 0) (tableByte nbits w 1) 0x00 with
  | .instr i => some i
  | .unimplementedOpcode _ => none

end Sys2Proof
end

