-- ==== Sys2Proof/Machine/Bits.lean ====
section
/-! DEFINITION. The byte and bit-field notation of 00_scope.md section 5. -/

namespace Sys2Proof.Machine

/-- `hi(w)`: `w[15:8]`. -/
def hi (w : Word) : Byte := w.extractLsb' 8 8

/-- `lo(w)`: `w[7:0]`. -/
def lo (w : Word) : Byte := w.extractLsb' 0 8

/-- `h ++ l`, the `u16` with `h` in the high bits. -/
def joinBytes (h l : Byte) : Word := h ++ l

/-- `zext_16(b)`. -/
def zext16 (b : Byte) : Word := b.zeroExtend 16

/-- `sext_16(b)`: defined for the offset of Relative mode only; no rule uses the result (30_encoding.md R45). -/
def sext16 (b : Byte) : Word := b.signExtend 16

end Sys2Proof.Machine
end

