-- ==== Sys2Proof/Machine/State.lean ====
section
/-! DEFINITION. The state of the machine as plain data (10_state.md, 20_memory.md), its fault and refusal reasons, the
answer of the loader, and the state after reset (70_reset_and_hazards.md R91). -/

namespace Sys2Proof.Machine

/-- Why a cycle ends in a fault (60_exceptions.md R79). Both are the spec's own faults: fatal to the run, with the
architectural state as before the cycle (R86). -/
inductive Fault where
  /-- Raised by the decode step for an opcode byte absent from the decode table (60_exceptions.md R80). Safe: the spec
  gives exactly this effect. -/
  | unimplementedOpcode (byte : Byte) (pc : Word)
  /-- Raised by the dispatch step for an (Opcode, AddressMode) pair without a meaning (60_exceptions.md R81). Safe: the
  spec gives exactly this effect. -/
  | internalConsistencyFault (opcode : Opcode) (mode : AddressMode) (pc : Word)
  deriving DecidableEq, Repr

/-- Why the model gives no meaning. -/
inductive Refusal where
  /-- Raised by an arm of `exec` that has no meaning yet; no arm is one now. Safe: the model stops. -/
  | notModelled (mnemonic : String)
  deriving DecidableEq, Repr

/-- The status register `P`: seven flags, stored discretely (10_state.md R4). Bit 5 of the serialized byte is no state. -/
structure Status where
  c : Bool
  z : Bool
  i : Bool
  d : Bool
  b : Bool
  v : Bool
  n : Bool
  deriving DecidableEq, Repr

/-- The run state of the execution loop (10_state.md R10, 40_execution_cycle.md R62). -/
inductive RunState where
  | fetching
  | executing
  /-- The halt condition held after an execute step (40_execution_cycle.md R64). -/
  | halted
  /-- A fatal failure ended the run; never a normal end (60_exceptions.md R88, decision D10). -/
  | faulted (reason : Fault)
  deriving DecidableEq, Repr

/-- The four logical regions of the address space (20_memory.md R21); names only. -/
inductive Region where
  | zeroPage
  | stackPage
  | programRam
  | vectorSlot
  deriving DecidableEq, Repr

/-- The 65536 cells as the list of those that do not read `Config.unlistedByte`, addresses strictly rising. -/
abbrev Memory := List Host.Cell

/-- Everything 10_state.md gives the machine. -/
structure State where
  /-- accumulator (10_state.md R1) -/
  a : Byte
  /-- X index register (R1) -/
  x : Byte
  /-- Y index register (R1) -/
  y : Byte
  /-- stack pointer, an index into 0x0100..0x01FF (R3) -/
  sp : Byte
  /-- program counter (R2) -/
  pc : Word
  /-- status register (R4) -/
  p : Status
  /-- memory (R12) -/
  mem : Memory
  /-- run state of the execution loop (R10) -/
  runState : RunState
  /-- THE MODEL'S OWN FIELD: the machine's `DECODE_EXT` (30_encoding.md R44), configuration that nothing writes. DESIGN
  CHOICE (log entry 2): kept here so that every claim about `step` holds for every extension. -/
  decodeExt : List DecodeEntry
  deriving DecidableEq, Repr

/-- What `loadProgram` returns (20_memory.md R29, R30), with the state after it. -/
inductive LoadOutcome where
  | loaded (s : State)
  /-- The program exceeds program RAM; a value returned to the host, no fault (60_exceptions.md R82). -/
  | programTooLarge (s : State)
  deriving DecidableEq, Repr

/-- Reset: the construction of the engine with its open parameters (70_reset_and_hazards.md R91, 10_state.md R13 to R18). -/
def State.construct (cfg : Config) : State :=
  { a := cfg.resetA
    x := cfg.resetX
    y := cfg.resetY
    sp := Config.resetSp
    pc := Config.programRamStart
    p := { c := false, z := false, i := true, d := false, b := false, v := false, n := false }
    mem := []
    runState := .fetching
    decodeExt := cfg.decodeExt }

/-- The machine right after reset, with `RESET_A = RESET_X = RESET_Y = 0x00` (DESIGN CHOICE, log entry 1, unsafe) and the
spec's default empty `DECODE_EXT`. -/
def State.reset : State := State.construct Config.default

end Sys2Proof.Machine
end

