-- ==== Sys2Proof/Machine/Flags.lean ====
section
/-! DEFINITION. The status register's operations: one setter per flag (10_state.md R8), the zero and negative rule of a load
(41_load.md R68, R75), serialization and deserialization (10_state.md R5, R6). -/

namespace Sys2Proof.Machine

/-- `P.C <- f` (10_state.md R8). -/
def Status.setC (p : Status) (f : Bool) : Status := { p with c := f }
/-- `P.Z <- f` (10_state.md R8). -/
def Status.setZ (p : Status) (f : Bool) : Status := { p with z := f }
/-- `P.I <- f` (10_state.md R8). -/
def Status.setI (p : Status) (f : Bool) : Status := { p with i := f }
/-- `P.D <- f` (10_state.md R8). -/
def Status.setD (p : Status) (f : Bool) : Status := { p with d := f }
/-- `P.B <- f` (10_state.md R8). -/
def Status.setB (p : Status) (f : Bool) : Status := { p with b := f }
/-- `P.V <- f` (10_state.md R8). -/
def Status.setV (p : Status) (f : Bool) : Status := { p with v := f }
/-- `P.N <- f` (10_state.md R8). -/
def Status.setN (p : Status) (f : Bool) : Status := { p with n := f }

/-- The zero flag of a loaded value: `value == 0x00` (41_load.md R68). -/
def zeroFlag (value : Byte) : Bool := value == 0x00

/-- The negative flag of a loaded value: its bit 7 and nothing else (41_load.md R75). -/
def negativeFlag (value : Byte) : Bool := value.getLsbD 7

/-- The flags after a load of `value`: `Z`, then `N` (41_load.md R68). -/
def Status.afterLoad (p : Status) (value : Byte) : Status :=
  (p.setZ (zeroFlag value)).setN (negativeFlag value)

/-- The flags a `BRK` sets before it serializes them (42_system.md R76). -/
def Status.afterBreak (p : Status) : Status := (p.setB true).setI true

/-- One flag as a mask. -/
def flagMask (f : Bool) (mask : Byte) : Byte := if f then mask else 0x00

/-- `asByte(P)` (10_state.md R5): bit 5 forced to one. -/
def asByte (p : Status) : Byte :=
  flagMask p.n 0x80 ||| flagMask p.v 0x40 ||| 0x20 ||| flagMask p.b 0x10 ||| flagMask p.d 0x08 |||
    flagMask p.i 0x04 ||| flagMask p.z 0x02 ||| flagMask p.c 0x01

/-- `fromByte(b)` (10_state.md R6): bit 5 ignored. No instruction uses it. -/
def fromByte (b : Byte) : Status :=
  { c := b.getLsbD 0
    z := b.getLsbD 1
    i := b.getLsbD 2
    d := b.getLsbD 3
    b := b.getLsbD 4
    v := b.getLsbD 6
    n := b.getLsbD 7 }

end Sys2Proof.Machine
end

