-- ==== Sys2Proof/Machine/Memory.lean ====
section
/-! DEFINITION. The memory bus: one flat array of 65536 byte cells (20_memory.md R20 to R24). -/

namespace Sys2Proof.Machine

/-- `MemRead(addr, 1)` (20_memory.md R22): total, no side effect. -/
def Memory.read : Memory → Word → Byte
  | [], _ => Config.unlistedByte
  | (k, v) :: t, addr => if k = addr.toNat then v else Memory.read t addr

/-- Drop every entry of one cell. -/
def Memory.erase (k : Nat) : Memory → Memory
  | [] => []
  | (k', v) :: t => if k' = k then Memory.erase k t else (k', v) :: Memory.erase k t

/-- Put an entry before the first one with a larger address. -/
def Memory.insert (k : Nat) (v : Byte) : Memory → Memory
  | [] => [(k, v)]
  | (k', v') :: t => if k < k' then (k, v) :: (k', v') :: t else (k', v') :: Memory.insert k v t

/-- `MemWrite(addr, 1, v)` (20_memory.md R23): that one cell, nothing else. A cell that again reads as an unlisted one is
not listed, which keeps the form canonical. -/
def Memory.write (m : Memory) (addr : Word) (v : Byte) : Memory :=
  if v = Config.unlistedByte then Memory.erase addr.toNat m
  else Memory.insert addr.toNat v (Memory.erase addr.toNat m)

/-- Addresses rise strictly from `low`, stay below 65536, and no entry holds the unlisted value. -/
def Memory.wfFrom (low : Nat) : Memory → Bool
  | [] => true
  | (k, v) :: t => decide (low ≤ k) && decide (k < 65536) && v != Config.unlistedByte && Memory.wfFrom (k + 1) t

/-- The canonical form. -/
def Memory.wf (m : Memory) : Bool := Memory.wfFrom 0 m

/-- The region an address lies in (20_memory.md R21); the hardware enforces nothing about it. -/
def regionOf (addr : Word) : Region :=
  if addr.toNat < 0x0100 then .zeroPage
  else if addr.toNat < 0x0200 then .stackPage
  else if addr.toNat < 0xFFFE then .programRam
  else .vectorSlot

end Sys2Proof.Machine
end

