-- ==== Sys2Proof/Machine/Ops.lean ====
section
/-! DEFINITION. The named operations on the state: register writes, byte access, vector read, stack (20_memory.md), the
software-interrupt entry (42_system.md R76, 60_exceptions.md R83), fault raising, the host's loader. There is no return from
an interrupt to stand beside the entry: the spec has none (60_exceptions.md R87). -/

namespace Sys2Proof.Machine

/-- `A <- v` (10_state.md R1). -/
def State.setA (s : State) (v : Byte) : State := { s with a := v }
/-- `SP <- v` (10_state.md R3). -/
def State.setSp (s : State) (v : Byte) : State := { s with sp := v }
/-- `pc <- target` (10_state.md R2). -/
def State.setPc (s : State) (target : Word) : State := { s with pc := target }
/-- Write the flags. -/
def State.setP (s : State) (p : Status) : State := { s with p := p }
/-- Write the memory array. -/
def State.setMem (s : State) (m : Memory) : State := { s with mem := m }
/-- Write the run state (40_execution_cycle.md R62). -/
def State.setRunState (s : State) (r : RunState) : State := { s with runState := r }

/-- `readByte(addr)` (20_memory.md R22). -/
def State.readByte (s : State) (addr : Word) : Byte := s.mem.read addr

/-- `writeByte(addr, v)` (20_memory.md R23). -/
def State.writeByte (s : State) (addr : Word) (v : Byte) : State := s.setMem (s.mem.write addr v)

/-- `Read16LE(addr)`: low byte at `addr`, high byte at the next address (20_memory.md R25, decision D2; log entry 4). -/
def State.read16LE (s : State) (addr : Word) : Word := joinBytes (s.readByte (addr + 1)) (s.readByte addr)

/-- `VectorTarget()`: the address held in the interrupt-vector slot (20_memory.md R25). -/
def State.vectorTarget (s : State) : Word := s.read16LE Config.ivec

/-- The cell a stack pointer designates, always in 0x0100..0x01FF (10_state.md R3). -/
def stackAddr (sp : Byte) : Word := Config.stackBase + zext16 sp

/-- `Push(v)`: write, then decrement modulo 256 (20_memory.md R26, decision D3; log entry 5). -/
def State.push (s : State) (v : Byte) : State :=
  (s.writeByte (stackAddr s.sp) v).setSp (s.sp - 1)

/-- `Pop()`: increment modulo 256, then read (20_memory.md R27, decision D3; log entry 5). No instruction pops. -/
def State.pop (s : State) : Byte × State :=
  (s.readByte (stackAddr (s.sp + 1)), s.setSp (s.sp + 1))

/-- What trap entry saves, in push order: the high byte of `pc`, its low byte, the status byte (60_exceptions.md R83). -/
def State.pushFrame (s : State) : State :=
  ((s.push (hi s.pc)).push (lo s.pc)).push (asByte s.p)

/-- Control goes to the address held in the vector slot (60_exceptions.md R83). -/
def State.jumpThroughVector (s : State) : State := s.setPc s.vectorTarget

/-- Taking the software interrupt (42_system.md R76, in its order): `pc` past the reserved byte, `B` and `I` set, the frame
pushed, `pc` from the vector. -/
def State.takeSoftwareInterrupt (s : State) : State :=
  ((s.setPc (s.pc + 2)).setP s.p.afterBreak).pushFrame.jumpThroughVector

/-- `raise InternalConsistencyFault(opcode, mode, pc)`: no state is changed (60_exceptions.md R81). -/
def State.raiseInternalConsistency (s : State) (op : Opcode) (m : AddressMode) : Host.Outcome State Fault Refusal :=
  .fault (.internalConsistencyFault op m s.pc)

/-- `raise UnimplementedOpcode(byte, pc)`: no state is changed (60_exceptions.md R80). -/
def State.raiseUnimplementedOpcode (s : State) (byte : Byte) : Host.Outcome State Fault Refusal :=
  .fault (.unimplementedOpcode byte s.pc)

/-- `MemWrite(addr + i, 1, bytes[i])` for each index, in ascending order. -/
def State.storeBytes (s : State) (addr : Word) : List Byte → State
  | [] => s
  | b :: bs => State.storeBytes (s.writeByte addr b) (addr + 1) bs

/-- `loadProgram(bytes)` (20_memory.md R29, R30): verbatim from 0x0200, or `ProgramTooLarge` with nothing written. -/
def State.loadProgram (s : State) (bytes : List Byte) : LoadOutcome :=
  if bytes.length ≤ Config.programRamSize then .loaded (s.storeBytes Config.programRamStart bytes)
  else .programTooLarge s

end Sys2Proof.Machine
end

