-- ==== Sys2Proof/Machine/Operands.lean ====
section
/-! DEFINITION. Operand resolution in each addressing mode (40_execution_cycle.md R53 to R60, 30_encoding.md R45). -/

namespace Sys2Proof.Machine

/-- A zero-page operand byte as an address (30_encoding.md R45). -/
def zeroPageAddr (b : Byte) : Word := zext16 b

/-- An indexed zero-page address: the sum wraps modulo 256 before it becomes an address (30_encoding.md R45). -/
def zeroPageIndexed (b index : Byte) : Word := zext16 (b + index)

/-- Relative mode's byte as a signed 16-bit addend (30_encoding.md R45); the spec adds it to nothing
(40_execution_cycle.md R60). -/
def relativeOffset (b : Byte) : Word := sext16 b

/-- `resolveOperandValue` on the mode and the operand byte, from live state (40_execution_cycle.md R53). `none`: the mode
yields no value (R54, R60). -/
def resolveOperandValue (m : AddressMode) (b : Byte) (s : State) : Option Byte :=
  match m with
  | .implicit => none
  | .accumulator => some s.a
  | .immediate => some b
  | .zeroPage => some (s.readByte (zeroPageAddr b))
  | .zeroPageX => some (s.readByte (zeroPageIndexed b s.x))
  | .zeroPageY => some (s.readByte (zeroPageIndexed b s.y))
  | .relative => none

/-- `len(instr)` as the addend of `pc` (30_encoding.md R46). -/
def lenWord (m : AddressMode) : Word := BitVec.ofNat 16 m.len

end Sys2Proof.Machine
end

