-- ==== Sys2Proof/Machine/Load.lean ====
section
/-! DEFINITION. The load family: `LDA` in each addressing mode (41_load.md). -/

namespace Sys2Proof.Machine

/-- The effect of a load of `value` by an instruction of mode `m`: `A`, `Z`, `N`, `pc`, in that order (41_load.md R68). -/
def State.loadAccumulator (s : State) (m : AddressMode) (value : Byte) : State :=
  ((s.setA value).setP (s.p.afterLoad value)).setPc (s.pc + lenWord m)

/-- `ExecLDA` (41_load.md R68): a mode without a value raises the fault before any state is changed (R74). -/
def execLda (m : AddressMode) (b : Byte) (s : State) : Host.Outcome State Fault Refusal :=
  match resolveOperandValue m b s with
  | some value => .next (s.loadAccumulator m value)
  | none => s.raiseInternalConsistency .lda m

/-- `LDA #$nn` (41_load.md R69). -/
def execLdaImmediate (b : Byte) (s : State) : Host.Outcome State Fault Refusal := execLda .immediate b s

/-- `LDA $nn` (41_load.md R70). -/
def execLdaZeroPage (b : Byte) (s : State) : Host.Outcome State Fault Refusal := execLda .zeroPage b s

/-- `LDA $nn,X` (41_load.md R71). -/
def execLdaZeroPageX (b : Byte) (s : State) : Host.Outcome State Fault Refusal := execLda .zeroPageX b s

/-- `LDA $nn,Y` (41_load.md R72). -/
def execLdaZeroPageY (b : Byte) (s : State) : Host.Outcome State Fault Refusal := execLda .zeroPageY b s

/-- `LDA A` (41_load.md R73). The mode has no operand byte, so the one passed on is not read. -/
def execLdaAccumulator (s : State) : Host.Outcome State Fault Refusal := execLda .accumulator 0x00 s

/-- (`LDA`, Implicit): `InternalConsistencyFault` (41_load.md R74). -/
def execLdaImplicit (s : State) : Host.Outcome State Fault Refusal := execLda .implicit 0x00 s

/-- (`LDA`, Relative): `InternalConsistencyFault` (41_load.md R74). -/
def execLdaRelative (b : Byte) (s : State) : Host.Outcome State Fault Refusal := execLda .relative b s

end Sys2Proof.Machine
end

