-- ==== Sys2Proof/Machine/System.lean ====
section
/-! DEFINITION. The system family: `BRK` (42_system.md). -/

namespace Sys2Proof.Machine

/-- `ExecBRK` (42_system.md R76): any mode but Implicit raises the fault before any state is changed (R77). -/
def execBrkMode (m : AddressMode) (s : State) : Host.Outcome State Fault Refusal :=
  if m = .implicit then .next s.takeSoftwareInterrupt else s.raiseInternalConsistency .brk m

/-- `BRK` (42_system.md R76). -/
def execBrk (s : State) : Host.Outcome State Fault Refusal := execBrkMode .implicit s

/-- (`BRK`, Accumulator): `InternalConsistencyFault` (42_system.md R77). -/
def execBrkAccumulator (s : State) : Host.Outcome State Fault Refusal := execBrkMode .accumulator s

/-- (`BRK`, Immediate): `InternalConsistencyFault` (42_system.md R77). -/
def execBrkImmediate (s : State) : Host.Outcome State Fault Refusal := execBrkMode .immediate s

/-- (`BRK`, ZeroPage): `InternalConsistencyFault` (42_system.md R77). -/
def execBrkZeroPage (s : State) : Host.Outcome State Fault Refusal := execBrkMode .zeroPage s

/-- (`BRK`, ZeroPageX): `InternalConsistencyFault` (42_system.md R77). -/
def execBrkZeroPageX (s : State) : Host.Outcome State Fault Refusal := execBrkMode .zeroPageX s

/-- (`BRK`, ZeroPageY): `InternalConsistencyFault` (42_system.md R77). -/
def execBrkZeroPageY (s : State) : Host.Outcome State Fault Refusal := execBrkMode .zeroPageY s

/-- (`BRK`, Relative): `InternalConsistencyFault` (42_system.md R77). -/
def execBrkRelative (s : State) : Host.Outcome State Fault Refusal := execBrkMode .relative s

end Sys2Proof.Machine
end

