-- ==== Sys2Proof/Machine/Dispatch.lean ====
section
/-! DEFINITION. The dispatch step (40_execution_cycle.md R52): one arm per constructor of `Instr`. -/

namespace Sys2Proof.Machine

/-- Execute: one meaning per decoded instruction (40_execution_cycle.md R52). -/
def exec (i : Instr) (s : State) : Host.Outcome State Fault Refusal :=
  match i with
  | .brk => Sys2Proof.Machine.execBrk s
  | .ldaImmediate b => Sys2Proof.Machine.execLdaImmediate b s
  | .ldaZeroPage b => Sys2Proof.Machine.execLdaZeroPage b s
  | .ldaZeroPageX b => Sys2Proof.Machine.execLdaZeroPageX b s
  | .ldaZeroPageY b => Sys2Proof.Machine.execLdaZeroPageY b s
  | .ldaAccumulator => Sys2Proof.Machine.execLdaAccumulator s
  -- the pairs without a meaning (41_load.md R74, 42_system.md R77)
  | .ldaImplicit => Sys2Proof.Machine.execLdaImplicit s
  | .ldaRelative b => Sys2Proof.Machine.execLdaRelative b s
  | .brkAccumulator => Sys2Proof.Machine.execBrkAccumulator s
  | .brkImmediate _ => Sys2Proof.Machine.execBrkImmediate s
  | .brkZeroPage _ => Sys2Proof.Machine.execBrkZeroPage s
  | .brkZeroPageX _ => Sys2Proof.Machine.execBrkZeroPageX s
  | .brkZeroPageY _ => Sys2Proof.Machine.execBrkZeroPageY s
  | .brkRelative _ => Sys2Proof.Machine.execBrkRelative s

end Sys2Proof.Machine
end

