-- ==== Sys2Proof/Machine/Run.lean ====
section
/-! DEFINITION. Fetch, the single cycle, the halt condition and the run loop (40_execution_cycle.md R50, R51, R61 to R65), and
the placing of one instruction at the fetch address. -/

namespace Sys2Proof.Machine

/-- `Fetch()`: three bytes at `pc`, `pc + 1`, `pc + 2`, addresses modulo 65536 (40_execution_cycle.md R50). -/
def State.fetch (s : State) : Byte × Byte × Byte :=
  (s.readByte s.pc, s.readByte (s.pc + 1), s.readByte (s.pc + 2))

/-- The decode step: the fetched bytes through `decode` (40_execution_cycle.md R51). -/
def State.fetchDecode (s : State) : DecodeResult :=
  decode s.decodeExt s.fetch.1 s.fetch.2.1 s.fetch.2.2

/-- `Cycle()`: one fetch, decode and execute (40_execution_cycle.md R61). It neither reads nor writes the run state. -/
def cycle (s : State) : Host.Outcome State Fault Refusal :=
  match s.fetchDecode with
  | .instr i => exec i s
  | .unimplementedOpcode o => s.raiseUnimplementedOpcode o

/-- `HaltCondition()`: `pc` equals the address held in the vector slot (40_execution_cycle.md R63, decision D1; log
entry 8). -/
def State.haltCondition (s : State) : Bool := s.pc == s.vectorTarget

/-- Leaving Executing: Halted where the halt condition holds, else Fetching (40_execution_cycle.md R62). -/
def State.leaveExecuting (s : State) : State :=
  s.setRunState (if s.haltCondition then .halted else .fetching)

/-- The run state's transition on the outcome of an execute step; a fault changes no state. -/
def leaveExecutingOn : Host.Outcome State Fault Refusal → Host.Outcome State Fault Refusal
  | .next t => .next t.leaveExecuting
  | .fault r => .fault r
  | .refused r => .refused r

/-- One turn of the run loop: Fetching, Executing, and the test on leaving Executing (40_execution_cycle.md R62). -/
def turn (s : State) : Host.Outcome State Fault Refusal :=
  match s.fetchDecode with
  | .instr i => leaveExecutingOn (exec i (s.setRunState .executing))
  | .unimplementedOpcode o => s.raiseUnimplementedOpcode o

/-- The engine's step: one turn in every run state but Faulted, also in a halted one (40_execution_cycle.md R61, R65); a
faulted run takes no further step and keeps its reason (60_exceptions.md R88). -/
def engineStep (s : State) : Host.Outcome State Fault Refusal :=
  match s.runState with
  | .fetching => turn s
  | .executing => turn s
  | .halted => turn s
  | .faulted r => .fault r

/-- The loop of `Run()` for at most `k` cycles (40_execution_cycle.md R62). -/
def runLoop : Nat → State → State
  | 0, s => s
  | k + 1, s =>
    match turn s with
    | .next t => if t.runState = .halted then t else runLoop k t
    | .fault r => s.setRunState (.faulted r)
    | .refused _ => s

/-- `Run()` followed for at most `k` cycles, from Fetching and with no test before the first fetch (40_execution_cycle.md
R62, R63). The spec gives no bound on the number of cycles (R67): a run ends where some `k` gives an ended run state. -/
def run (k : Nat) (s : State) : State := runLoop k (s.setRunState .fetching)

/-- The run is over: Halted or Faulted (40_execution_cycle.md R62). -/
def RunState.ended : RunState → Bool
  | .fetching => false
  | .executing => false
  | .halted => true
  | .faulted _ => true

/-- The host's boot order: construct, then `loadProgram` (70_reset_and_hazards.md R93). -/
def boot (cfg : Config) (bytes : List Byte) : LoadOutcome := (State.construct cfg).loadProgram bytes

/-- `DECODE_EXT_LDA_ZP` where the opcode byte is one of its rows, else what the machine has (log entry 3). -/
def extensionFor (o : Byte) (ext : List DecodeEntry) : List DecodeEntry :=
  match lookupOpcode decodeExtLdaZp o with
  | some _ => decodeExtLdaZp
  | none => ext

/-- A run state in which the engine steps. -/
def RunState.resumed : RunState → RunState
  | .fetching => .fetching
  | .executing => .executing
  | .halted => .halted
  | .faulted _ => .fetching

/-- The two bytes of an opcode-table word stored at `pc`, and what its decoding needs (log entries 3 and 18). -/
def State.placeWord (s : State) (nbits w : Nat) : State :=
  let o := tableByte nbits w 0
  { s.storeBytes s.pc [o, tableByte nbits w 1] with
    runState := s.runState.resumed
    decodeExt := extensionFor o s.decodeExt }

end Sys2Proof.Machine
end

