-- ==== Sys2Proof/Machine/Step.lean ====
section
/-! DEFINITION. The step of the machine: one turn of the run loop (40_execution_cycle.md R61, R62). -/

namespace Sys2Proof.Machine

/-- One step: a next state, a fault, or a refusal. -/
def step (s : State) : Host.Outcome State Fault Refusal := engineStep s

/-- `s` with a word of the opcode table stored where the next step fetches (log entries 3 and 18). -/
def State.withFetchWord (s : State) (nbits w : Nat) : State := s.placeWord nbits w

end Sys2Proof.Machine
end

