-- ==== Sys2Proof/Safety.lean ====
section
/-! DEFINITION. What claims call a good state and a good run: the invariant every step keeps, and runs that end or never
fault. -/

namespace Sys2Proof.Machine

/-- The invariant of the machine. Memory is in its canonical form; `DECODE_EXT` is a finite map that leaves the base bytes
alone (30_encoding.md R44); `Z` and `N` are never both set (41_load.md R68); a halted machine has `pc` at the vector
target (40_execution_cycle.md R64). -/
abbrev State.Inv (s : State) : Prop :=
  s.mem.wf = true ∧ DecodeExt.wf s.decodeExt = true ∧ ¬ (s.p.z = true ∧ s.p.n = true) ∧
    (s.runState = .halted → s.pc = s.vectorTarget)

/-- A run from `s` ends in Halted, the normal end (40_execution_cycle.md R64). -/
def RunHalts (s : State) : Prop := ∃ k, (run k s).runState = .halted

/-- A run from `s` never ends in a fault (60_exceptions.md R88). -/
def RunSafe (s : State) : Prop := ∀ k r, (run k s).runState ≠ .faulted r

end Sys2Proof.Machine
end

