-- ==== Sys2Proof/Certificates/Slice0/Obligations.lean ====
section
/-! DEFINITION. The statements for the provers. Each docstring names the rule of spec/ it formalises; where a statement
rests on a decision of the spec (92_eei_decisions.md D<n>) or on a choice of the model, it says so. -/

set_option autoImplicit false

open Sys2Proof Sys2Proof.Machine

/-! ### Reset -/

/-- 10_state.md R15: after reset only interrupt-disable is set, and the status serializes to 0x24. -/
def Obligations.ResetStatusHasOnlyInterruptDisable : Prop :=
  ∀ cfg : Config,
    (State.construct cfg).p = { c := false, z := false, i := true, d := false, b := false, v := false, n := false } ∧
      asByte (State.construct cfg).p = 0x24

/-- 10_state.md R13 to R18, 70_reset_and_hazards.md R91: the other reset values, for every choice of the open parameters.
Decisions of the spec: `SP` 0xFF (D4), `pc` a constant (D12), Fetching (D1). The model's choice (log entry 1): `State.reset`
takes 0x00 for `RESET_A`, `RESET_X` and `RESET_Y`. -/
def Obligations.ResetRegistersAndMemory : Prop :=
  (∀ cfg : Config,
    (State.construct cfg).pc = 0x0200 ∧ (State.construct cfg).sp = 0xFF ∧
      (State.construct cfg).a = cfg.resetA ∧ (State.construct cfg).x = cfg.resetX ∧
      (State.construct cfg).y = cfg.resetY ∧ (State.construct cfg).decodeExt = cfg.decodeExt ∧
      (State.construct cfg).runState = .fetching ∧
      (∀ addr : Word, (State.construct cfg).readByte addr = 0x00) ∧
      (State.construct cfg).vectorTarget = 0x0000) ∧
    State.reset = State.construct { resetA := 0x00, resetX := 0x00, resetY := 0x00, decodeExt := [] }

/-- The invariant `State.Inv` holds after reset, for every `DECODE_EXT` that is a finite map off the base bytes. -/
def Obligations.ResetMeetsInvariant : Prop :=
  State.reset.Inv ∧ ∀ cfg : Config, DecodeExt.wf cfg.decodeExt = true → (State.construct cfg).Inv

/-! ### The status register -/

/-- 10_state.md R5: `asByte` packs the seven flags into bits 0, 1, 2, 3, 4, 6, 7 and forces bit 5 to one; all flags clear
gives 0x20 and only `I` gives 0x24. -/
def Obligations.StatusByteLayout : Prop :=
  (∀ p : Status,
    (asByte p).getLsbD 0 = p.c ∧ (asByte p).getLsbD 1 = p.z ∧ (asByte p).getLsbD 2 = p.i ∧
      (asByte p).getLsbD 3 = p.d ∧ (asByte p).getLsbD 4 = p.b ∧ (asByte p).getLsbD 5 = true ∧
      (asByte p).getLsbD 6 = p.v ∧ (asByte p).getLsbD 7 = p.n) ∧
    asByte { c := false, z := false, i := false, d := false, b := false, v := false, n := false } = 0x20 ∧
    asByte { c := false, z := false, i := true, d := false, b := false, v := false, n := false } = 0x24

/-- 10_state.md R6: `fromByte` unpacks the seven flags and ignores bit 5; 0x81 has `C` and `N` only. -/
def Obligations.FromByteUnpacksFlags : Prop :=
  (∀ b : Byte,
    fromByte b = { c := b.getLsbD 0, z := b.getLsbD 1, i := b.getLsbD 2, d := b.getLsbD 3, b := b.getLsbD 4,
                   v := b.getLsbD 6, n := b.getLsbD 7 } ∧
      fromByte (b ||| 0x20) = fromByte b) ∧
    fromByte 0x81 = { c := true, z := false, i := false, d := false, b := false, v := false, n := true }

/-- 10_state.md R7: packing an unpacked byte forces bit 5 to one and keeps the other bits. -/
def Obligations.StatusByteRoundTrip : Prop :=
  ∀ b : Byte, asByte (fromByte b) = b ||| 0x20

/-- The converse law of 10_state.md R7, an inference the spec marks as its own. -/
def Obligations.FlagsRoundTripThroughTheByte : Prop :=
  ∀ p : Status, fromByte (asByte p) = p

/-- 10_state.md R8: each of the seven setters writes its one flag, and a state whose flags are written so keeps everything
else. -/
def Obligations.FlagSettersTouchOneFlag : Prop :=
  ∀ (p : Status) (f : Bool),
    p.setC f = { p with c := f } ∧ p.setZ f = { p with z := f } ∧ p.setI f = { p with i := f } ∧
      p.setD f = { p with d := f } ∧ p.setB f = { p with b := f } ∧ p.setV f = { p with v := f } ∧
      p.setN f = { p with n := f } ∧ ∀ (s : State) (q : Status), s.setP q = { s with p := q }

/-! ### Memory, stack and loader -/

/-- 20_memory.md R23: a write changes that one cell and nothing else. -/
def Obligations.WriteChangesOneCell : Prop :=
  ∀ (s : State) (addr : Word) (v : Byte),
    (s.writeByte addr v).readByte addr = v ∧
      (∀ other : Word, other ≠ addr → (s.writeByte addr v).readByte other = s.readByte other) ∧
      s.writeByte addr v = { s with mem := (s.writeByte addr v).mem }

/-- Memories in canonical form that read alike in every cell are the same data (the 65536 cells are all there is to the
memory: 10_state.md R12, 20_memory.md R20; the form is the model's). -/
def Obligations.CanonicalMemoriesThatReadAlikeAreEqual : Prop :=
  ∀ m m' : Memory, m.wf = true → m'.wf = true → (∀ addr : Word, m.read addr = m'.read addr) → m = m'

/-- 20_memory.md R21: the four named regions and their ranges. -/
def Obligations.RegionsCoverTheAddressSpace : Prop :=
  ∀ addr : Word,
    (regionOf addr = .zeroPage ↔ addr.toNat ≤ 0x00FF) ∧
      (regionOf addr = .stackPage ↔ 0x0100 ≤ addr.toNat ∧ addr.toNat ≤ 0x01FF) ∧
      (regionOf addr = .programRam ↔ 0x0200 ≤ addr.toNat ∧ addr.toNat ≤ 0xFFFD) ∧
      (regionOf addr = .vectorSlot ↔ 0xFFFE ≤ addr.toNat ∧ addr.toNat ≤ 0xFFFF)

/-- 20_memory.md R25: the vector target has its low byte in 0xFFFE and its high byte in 0xFFFF (decision D2 of the spec, log
entry 4). -/
def Obligations.VectorTargetIsLittleEndian : Prop :=
  ∀ s : State, s.vectorTarget.toNat = 256 * (s.readByte 0xFFFF).toNat + (s.readByte 0xFFFE).toNat

/-- 20_memory.md R26, 10_state.md R3: a push writes the cell 0x0100 + `SP` and then decrements `SP` modulo 256 (decision D3
of the spec, log entry 5); nothing else changes. -/
def Obligations.PushWritesThenDecrements : Prop :=
  ∀ (s : State) (v : Byte),
    (stackAddr s.sp).toNat = 0x0100 + s.sp.toNat ∧ (s.push v).sp = s.sp - 1 ∧
      (∀ addr : Word, (s.push v).readByte addr = if addr = stackAddr s.sp then v else s.readByte addr) ∧
      s.push v = { s with sp := (s.push v).sp, mem := (s.push v).mem }

/-- 20_memory.md R27: a pop increments `SP` modulo 256 and reads the cell it then designates, so that it undoes a push
(decision D3 of the spec, log entry 5). -/
def Obligations.PopUndoesPush : Prop :=
  (∀ s : State, s.pop = (s.readByte (stackAddr (s.sp + 1)), { s with sp := s.sp + 1 })) ∧
    ∀ (s : State) (v : Byte), (s.push v).pop = (v, s.writeByte (stackAddr s.sp) v)

/-- 20_memory.md R28, 10_state.md R3: the stack is circular and unchecked. After any number of pushes `SP` has gone down by
that number modulo 256, each of the last 256 bytes stands in its cell, and no cell outside the stack page and no register
but `SP` has changed. The cells follow decision D3 of the spec. -/
def Obligations.StackIsCircularAndUnchecked : Prop :=
  ∀ (s : State) (vs : List Byte) (t : State), t = vs.foldl (fun u v => u.push v) s →
    t.sp = s.sp - BitVec.ofNat 8 vs.length ∧
      (∀ (k : Nat) (hk : k < vs.length), vs.length ≤ k + 256 →
        t.readByte (stackAddr (s.sp - BitVec.ofNat 8 k)) = vs[k]) ∧
      (∀ addr : Word, regionOf addr ≠ .stackPage → t.readByte addr = s.readByte addr) ∧
      t = { s with sp := t.sp, mem := t.mem }

/-- 20_memory.md R29, R31: a program that fits is written verbatim from 0x0200, and every other cell and all other state
stays (the capacity 65022 and the empty program are decision D19 of the spec). -/
def Obligations.LoaderPlacesProgramAndNothingElse : Prop :=
  ∀ (s : State) (bytes : List Byte), bytes.length ≤ 65022 →
    ∃ t : State, s.loadProgram bytes = .loaded t ∧
      (∀ (i : Nat) (hi : i < bytes.length), t.readByte (BitVec.ofNat 16 (0x0200 + i)) = bytes[i]) ∧
      (∀ addr : Word, addr.toNat < 0x0200 ∨ 0x0200 + bytes.length ≤ addr.toNat →
        t.readByte addr = s.readByte addr) ∧
      t = { s with mem := t.mem }

/-- 20_memory.md R30: a longer program is rejected with nothing written (the capacity 65022 is decision D19 of the spec). -/
def Obligations.LoaderRejectsProgramTooLarge : Prop :=
  ∀ (s : State) (bytes : List Byte), 65022 < bytes.length → s.loadProgram bytes = .programTooLarge s

/-! ### Encoding -/

/-- 30_encoding.md R39, R46: operand bytes and length of each mode. -/
def Obligations.ModeLengths : Prop :=
  ∀ m : AddressMode,
    m.operandBytes = (if m = .implicit ∨ m = .accumulator then 0 else 1) ∧ m.len = 1 + m.operandBytes

/-- 30_encoding.md R41: 0xA9 always decodes to (`LDA`, Immediate) with the first operand equal to the next byte and the
second absent, length 2. -/
def Obligations.ByteA9DecodesToLdaImmediate : Prop :=
  ∀ (ext : List DecodeEntry) (a b2 : Byte),
    decode ext 0xA9 a b2 = .instr (.ldaImmediate a) ∧ (Instr.ldaImmediate a).opcode = .lda ∧
      (Instr.ldaImmediate a).mode = .immediate ∧ (Instr.ldaImmediate a).operand1 = some a ∧
      (Instr.ldaImmediate a).operand2 = none ∧ (Instr.ldaImmediate a).mode.len = 2

/-- 30_encoding.md R42: 0x00 decodes to (`BRK`, Implicit) with no operand slot, whatever the reserved byte (decisions D7 and
D20 of the spec, log entry 9). -/
def Obligations.Byte00DecodesToBrk : Prop :=
  ∀ (ext : List DecodeEntry) (b1 b2 : Byte),
    decode ext 0x00 b1 b2 = .instr .brk ∧ Instr.brk.opcode = .brk ∧ Instr.brk.mode = .implicit ∧
      Instr.brk.operand1 = none ∧ Instr.brk.operand2 = none

/-- 30_encoding.md R43: an opcode byte absent from the table fails with `UnimplementedOpcode`, fatal to the run; with the
empty extension that is every byte but 0x00 and 0xA9. The third clause rests on decisions of the spec: the run ends Faulted
(40_execution_cycle.md R62, D10, log entry 11) with the byte and `pc` as payload (60_exceptions.md R80, D24, log entry
21). -/
def Obligations.AbsentOpcodeByteIsUnimplemented : Prop :=
  (∀ (ext : List DecodeEntry) (o b1 b2 : Byte), o ≠ 0x00 → o ≠ 0xA9 → DecodeExt.free o ext = true →
    decode ext o b1 b2 = .unimplementedOpcode o) ∧
    (∀ o b1 b2 : Byte, decode [] o b1 b2 = .unimplementedOpcode o ↔ o ≠ 0x00 ∧ o ≠ 0xA9) ∧
    ∀ (s : State) (k : Nat), s.readByte s.pc ≠ 0x00 → s.readByte s.pc ≠ 0xA9 →
      DecodeExt.free (s.readByte s.pc) s.decodeExt = true →
      run (k + 1) s = { s with runState := .faulted (.unimplementedOpcode (s.readByte s.pc) s.pc) }

/-- 30_encoding.md R44: an extension entry decodes to its pair, with the operand slot its mode counts (`DECODE_EXT` is
decision D8 of the spec, log entry 2). -/
def Obligations.ExtensionEntryDecodesToItsPair : Prop :=
  ∀ (ext : List DecodeEntry) (e : DecodeEntry) (b1 b2 : Byte), DecodeExt.wf ext = true → e ∈ ext →
    ∃ i : Instr, decode ext e.byte b1 b2 = .instr i ∧ i.opcode = e.opcode ∧ i.mode = e.mode ∧
      i.operand1 = (if e.mode.operandBytes = 0 then none else some b1) ∧ i.operand2 = none

/-- 30_encoding.md R40: what `decode` answers is named by the table, and its slots hold the operand bytes the mode counts
(no mode has two: decision D18 of the spec). -/
def Obligations.DecodedInstructionIsWellFormed : Prop :=
  ∀ (ext : List DecodeEntry) (o b1 b2 : Byte) (i : Instr), decode ext o b1 b2 = .instr i →
    Instr.wellFormedIn (decodeTable ext) i = true ∧ lookupOpcode (decodeTable ext) o = some (i.opcode, i.mode) ∧
      i.operand1 = (if i.mode.operandBytes = 0 then none else some b1) ∧ i.operand2 = none

/-- Words written out from the spec's encodings (opcode_table.json; 95_test_vectors.md E1 to E7) decode to their
instructions. -/
def Obligations.SpecWordsDecode : Prop :=
  decode [] 0b10101001 0b01000010 0x00 = .instr (.ldaImmediate 0x42) ∧
    decode [] 0b00000000 0b01010101 0x66 = .instr .brk ∧
    decode [] 0b10100101 0x10 0x00 = .unimplementedOpcode 0xA5 ∧
    decode decodeExtLdaZp 0b10100101 0x10 0x00 = .instr (.ldaZeroPage 0x10) ∧
    decode decodeExtLdaZp 0b10110101 0x10 0x00 = .instr (.ldaZeroPageX 0x10) ∧
    decode [] 0xEA 0x00 0x00 = .unimplementedOpcode 0xEA

/-- Decode and encode agree (30_encoding.md R38, R40, R44): under every extension, each well-formed instruction has bytes,
as many as its format counts, and whatever follows them they decode to it. -/
def Obligations.DecodeOfEncodeIsTheInstruction : Prop :=
  ∀ (ext : List DecodeEntry) (i : Instr), DecodeExt.wf ext = true → Instr.wellFormedIn (decodeTable ext) i = true →
    ∃ bs : List Byte, encode (decodeTable ext) i = some bs ∧
      bs.length = (if i = .brk then 2 else i.mode.len) ∧
      ∀ rest : List Byte, decodeBytes ext (bs ++ rest) = .instr i

/-! ### Operands -/

/-- 40_execution_cycle.md R55 to R59: the operand value of each mode that yields one. -/
def Obligations.OperandValueOfEachMode : Prop :=
  ∀ (b : Byte) (s : State),
    resolveOperandValue .accumulator b s = some s.a ∧ resolveOperandValue .immediate b s = some b ∧
      resolveOperandValue .zeroPage b s = some (s.readByte (b.zeroExtend 16)) ∧
      resolveOperandValue .zeroPageX b s = some (s.readByte ((b + s.x).zeroExtend 16)) ∧
      resolveOperandValue .zeroPageY b s = some (s.readByte ((b + s.y).zeroExtend 16))

/-- 30_encoding.md R45: the index sum wraps modulo 256 before the address is formed, so the access stays in the zero page. -/
def Obligations.ZeroPageAddressesStayInZeroPage : Prop :=
  ∀ b index : Byte,
    (zeroPageAddr b).toNat = b.toNat ∧ (zeroPageIndexed b index).toNat = (b.toNat + index.toNat) % 256 ∧
      regionOf (zeroPageAddr b) = .zeroPage ∧ regionOf (zeroPageIndexed b index) = .zeroPage

/-! ### LDA -/

/-- 41_load.md R69: `LDA` Immediate, byte 0xA9, in every state. -/
def Obligations.LdaImmediateResult : Prop :=
  ∀ (b b2 : Byte) (s : State),
    decode s.decodeExt 0xA9 b b2 = .instr (.ldaImmediate b) ∧
      exec (.ldaImmediate b) s =
        .next { s with a := b, p := { s.p with z := b == 0x00, n := b.getLsbD 7 }, pc := s.pc + 2 }

/-- 41_load.md R70: `LDA` ZeroPage, byte 0xA5 under `DECODE_EXT_LDA_ZP`, in every state. -/
def Obligations.LdaZeroPageResult : Prop :=
  ∀ (b b2 v : Byte) (s : State), v = s.readByte (b.zeroExtend 16) →
    decode decodeExtLdaZp 0xA5 b b2 = .instr (.ldaZeroPage b) ∧
      exec (.ldaZeroPage b) s =
        .next { s with a := v, p := { s.p with z := v == 0x00, n := v.getLsbD 7 }, pc := s.pc + 2 }

/-- 41_load.md R71: `LDA` ZeroPageX, byte 0xB5 under `DECODE_EXT_LDA_ZP`, in every state. -/
def Obligations.LdaZeroPageXResult : Prop :=
  ∀ (b b2 v : Byte) (s : State), v = s.readByte ((b + s.x).zeroExtend 16) →
    decode decodeExtLdaZp 0xB5 b b2 = .instr (.ldaZeroPageX b) ∧
      exec (.ldaZeroPageX b) s =
        .next { s with a := v, p := { s.p with z := v == 0x00, n := v.getLsbD 7 }, pc := s.pc + 2 }

/-- 41_load.md R72: `LDA` ZeroPageY, in every state. -/
def Obligations.LdaZeroPageYResult : Prop :=
  ∀ (b v : Byte) (s : State), v = s.readByte ((b + s.y).zeroExtend 16) →
    exec (.ldaZeroPageY b) s =
      .next { s with a := v, p := { s.p with z := v == 0x00, n := v.getLsbD 7 }, pc := s.pc + 2 }

/-- 41_load.md R73: `LDA` Accumulator sets `Z` and `N` from `A` and advances `pc` by 1, in every state. -/
def Obligations.LdaAccumulatorResult : Prop :=
  ∀ s : State,
    exec .ldaAccumulator s =
      .next { s with p := { s.p with z := s.a == 0x00, n := s.a.getLsbD 7 }, pc := s.pc + 1 }

/-- 41_load.md R68: the general rule of `LDA`, all modes: the operand value goes to `A`, `Z` and `N` follow it, `pc` advances
by the length; a mode without a value raises the fault before any state is changed. -/
def Obligations.LdaGeneralRule : Prop :=
  ∀ (i : Instr) (s : State), i.opcode = .lda →
    (∀ v : Byte, resolveOperandValue i.mode (i.operand1.getD 0x00) s = some v →
      exec i s = .next { s with a := v, p := { s.p with z := v == 0x00, n := v.getLsbD 7 },
                                pc := s.pc + BitVec.ofNat 16 (1 + i.mode.operandBytes) }) ∧
    (i.mode = .implicit ∨ i.mode = .relative →
      exec i s = .fault (.internalConsistencyFault .lda i.mode s.pc)) ∧
    (i.mode ≠ .implicit → i.mode ≠ .relative →
      ∃ v : Byte, resolveOperandValue i.mode (i.operand1.getD 0x00) s = some v)

/-- 41_load.md R75: after a load the negative flag is bit 7 of the loaded value and nothing else. -/
def Obligations.LdaNegativeFlagIsSignBit : Prop :=
  ∀ (i : Instr) (s t : State), i.opcode = .lda → exec i s = .next t →
    t.p.n = t.a.getLsbD 7 ∧ t.p.z = (t.a == 0x00) ∧ ¬ (t.p.z = true ∧ t.p.n = true)

/-- The frame of every form of `LDA` (41_load.md R68, "Writes nothing else"): it stores nothing. -/
def Obligations.LdaFrame : Prop :=
  ∀ (i : Instr) (s t : State), i.opcode = .lda → exec i s = .next t →
    t.x = s.x ∧ t.y = s.y ∧ t.sp = s.sp ∧ t.p.c = s.p.c ∧ t.p.i = s.p.i ∧ t.p.d = s.p.d ∧ t.p.b = s.p.b ∧
      t.p.v = s.p.v ∧ t.runState = s.runState ∧ t.decodeExt = s.decodeExt ∧
      ∀ addr : Word, t.readByte addr = s.readByte addr

/-- 41_load.md R74: (`LDA`, Implicit) and (`LDA`, Relative) raise the internal-consistency fault (decision D9 of the spec,
log entry 10). -/
def Obligations.LdaWithoutValueFaults : Prop :=
  ∀ (b : Byte) (s : State),
    exec .ldaImplicit s = .fault (.internalConsistencyFault .lda .implicit s.pc) ∧
      exec (.ldaRelative b) s = .fault (.internalConsistencyFault .lda .relative s.pc)

/-! ### BRK -/

/-- 42_system.md R76: `BRK` answers a next state in every state: three bytes pushed, `B` and `I` set, `SP` down by 3 modulo
256, `pc` from the vector slot, and nothing else changed. The cells of the push follow decision D3 of the spec and the byte
order of the vector decision D2 (log entries 4 and 5). -/
def Obligations.BrkPushesFrameAndVectors : Prop :=
  ∀ s : State, ∃ t : State, exec .brk s = .next t ∧
    t.pc = joinBytes (s.readByte 0xFFFF) (s.readByte 0xFFFE) ∧ t.sp = s.sp - 3 ∧
    t.p = { s.p with b := true, i := true } ∧
    t.readByte (stackAddr s.sp) = hi (s.pc + 2) ∧
    t.readByte (stackAddr (s.sp - 1)) = lo (s.pc + 2) ∧
    t.readByte (stackAddr (s.sp - 2)) = asByte { s.p with b := true, i := true } ∧
    (∀ addr : Word, addr ≠ stackAddr s.sp → addr ≠ stackAddr (s.sp - 1) → addr ≠ stackAddr (s.sp - 2) →
      t.readByte addr = s.readByte addr) ∧
    t.a = s.a ∧ t.x = s.x ∧ t.y = s.y ∧ t.runState = s.runState ∧ t.decodeExt = s.decodeExt

/-- 42_system.md R76 (b): the pushed status byte has bits 2, 4 and 5 set, and its other five bits are the flags before the
`BRK`. Where the byte stands follows decision D3 of the spec. -/
def Obligations.BrkPushedStatusByte : Prop :=
  ∀ s t : State, exec .brk s = .next t → ∀ b : Byte, b = t.readByte (stackAddr (s.sp - 2)) →
    b &&& 0x34 = 0x34 ∧ b.getLsbD 7 = s.p.n ∧ b.getLsbD 6 = s.p.v ∧ b.getLsbD 3 = s.p.d ∧ b.getLsbD 1 = s.p.z ∧
      b.getLsbD 0 = s.p.c

/-- 42_system.md R77: (`BRK`, any mode but Implicit) raises the internal-consistency fault (decision D9 of the spec, log
entry 10). -/
def Obligations.BrkOtherModesFault : Prop :=
  ∀ (b : Byte) (s : State),
    exec .brkAccumulator s = .fault (.internalConsistencyFault .brk .accumulator s.pc) ∧
      exec (.brkImmediate b) s = .fault (.internalConsistencyFault .brk .immediate s.pc) ∧
      exec (.brkZeroPage b) s = .fault (.internalConsistencyFault .brk .zeroPage s.pc) ∧
      exec (.brkZeroPageX b) s = .fault (.internalConsistencyFault .brk .zeroPageX s.pc) ∧
      exec (.brkZeroPageY b) s = .fault (.internalConsistencyFault .brk .zeroPageY s.pc) ∧
      exec (.brkRelative b) s = .fault (.internalConsistencyFault .brk .relative s.pc)

/-- 42_system.md R78, 40_execution_cycle.md R63: a step over the byte 0x00 takes the interrupt and halts, from every state
whose run has not faulted, whatever the next byte (the halt condition is decision D1 of the spec, log entry 8). -/
def Obligations.StepOverBrkHalts : Prop :=
  ∀ s : State, (∀ r : Fault, s.runState ≠ .faulted r) → s.readByte s.pc = 0x00 →
    ∃ t : State, step s = .next t ∧ t.runState = .halted ∧ t.pc = s.vectorTarget ∧ t.vectorTarget = s.vectorTarget ∧
      t.sp = s.sp - 3

/-! ### Dispatch and faults -/

/-- 40_execution_cycle.md R52: exactly the pairs (`LDA`, Implicit), (`LDA`, Relative) and (`BRK`, not Implicit) fault at
dispatch (decision D9 of the spec, log entry 10); every other instruction answers a next state, and none is refused. -/
def Obligations.DispatchFaultsExactlyOnPairsWithoutMeaning : Prop :=
  ∀ (i : Instr) (s : State),
    ((i.opcode = .lda ∧ (i.mode = .implicit ∨ i.mode = .relative)) ∨ (i.opcode = .brk ∧ i.mode ≠ .implicit) →
      exec i s = .fault (.internalConsistencyFault i.opcode i.mode s.pc)) ∧
    (¬ ((i.opcode = .lda ∧ (i.mode = .implicit ∨ i.mode = .relative)) ∨ (i.opcode = .brk ∧ i.mode ≠ .implicit)) →
      ∃ t : State, exec i s = .next t)

/-- 60_exceptions.md R80, R81, R85: the base machine (empty `DECODE_EXT`) steps exactly at the bytes 0x00 and 0xA9, and
its only fault is `UnimplementedOpcode` with the byte and its address (the payload is decision D24 of the spec). -/
def Obligations.BaseMachineFaultsExactlyOnAbsentBytes : Prop :=
  ∀ s : State, s.decodeExt = [] → (∀ r : Fault, s.runState ≠ .faulted r) →
    ((s.readByte s.pc = 0x00 ∨ s.readByte s.pc = 0xA9) → ∃ t : State, step s = .next t) ∧
    (s.readByte s.pc ≠ 0x00 → s.readByte s.pc ≠ 0xA9 →
      step s = .fault (.unimplementedOpcode (s.readByte s.pc) s.pc))

/-! ### Fetch, cycle, step -/

/-- 40_execution_cycle.md R50: fetch reads the three bytes at `pc`, `pc + 1`, `pc + 2`, addresses modulo 65536. -/
def Obligations.FetchReadsThreeBytes : Prop :=
  (∀ s : State, s.fetch = (s.readByte s.pc, s.readByte (s.pc + 1), s.readByte (s.pc + 2))) ∧
    ∀ s : State, s.pc = 0xFFFF → s.fetch = (s.readByte 0xFFFF, s.readByte 0x0000, s.readByte 0x0001)

/-- A step runs the decoded instruction (40_execution_cycle.md R61, R62): from every run state but Faulted, where the bytes
at `pc` decode to `i`, it is `exec i` in run state Executing; on a next state the run state then becomes Halted where `pc`
is the vector target and Fetching otherwise (decision D1 of the spec, log entry 8). -/
def Obligations.StepRunsDecodedInstruction : Prop :=
  ∀ (s : State) (i : Instr), (∀ r : Fault, s.runState ≠ .faulted r) → s.fetchDecode = .instr i →
    Instr.wellFormedIn (decodeTable s.decodeExt) i = true ∧
    step s = match exec i { s with runState := .executing } with
      | .next t => .next { t with runState := if t.pc = t.vectorTarget then .halted else .fetching }
      | .fault r => .fault r
      | .refused r => .refused r

/-- 40_execution_cycle.md R51, 60_exceptions.md R80: where the decode step fails, the step and the cycle end in
`UnimplementedOpcode` with the byte and its address (the payload is decision D24 of the spec). -/
def Obligations.StepFaultsOnUnimplementedOpcode : Prop :=
  ∀ (s : State) (o : Byte), (∀ r : Fault, s.runState ≠ .faulted r) → s.fetchDecode = .unimplementedOpcode o →
    o = s.readByte s.pc ∧ step s = .fault (.unimplementedOpcode o s.pc) ∧
      cycle s = .fault (.unimplementedOpcode o s.pc)

/-- 60_exceptions.md R88: a faulted run takes no further step (decision D10 of the spec, log entry 11). -/
def Obligations.FaultedRunTakesNoStep : Prop :=
  ∀ (s : State) (r : Fault), s.runState = .faulted r → step s = .fault r

/-- 40_execution_cycle.md R61, 10_state.md R10: execution depends on registers, flags, memory and the decode table; the run
state neither changes what an instruction does nor is changed by it. -/
def Obligations.RunStateDoesNotInfluenceExecution : Prop :=
  ∀ (i : Instr) (s : State) (r : RunState),
    (∀ t : State, exec i s = .next t → exec i (s.setRunState r) = .next (t.setRunState r) ∧ t.runState = s.runState) ∧
      ∀ f : Fault, exec i s = .fault f ↔ exec i (s.setRunState r) = .fault f

/-- 40_execution_cycle.md R62: a step is a cycle followed by the halt test. -/
def Obligations.StepIsCycleThenHaltTest : Prop :=
  ∀ s : State, (∀ r : Fault, s.runState ≠ .faulted r) →
    (∀ t : State, step s = .next t ↔ ∃ u : State, cycle s = .next u ∧ t = u.leaveExecuting) ∧
      ∀ f : Fault, step s = .fault f ↔ cycle s = .fault f

/-- 40_execution_cycle.md R62, R63: after every step the run is Halted exactly where `pc` equals the vector target, whatever
instruction ran, and Fetching otherwise (decision D1 of the spec, log entry 8). -/
def Obligations.HaltTestAfterEveryStep : Prop :=
  ∀ s t : State, step s = .next t →
    (t.runState = .halted ↔ t.pc = t.vectorTarget) ∧ (t.runState = .fetching ↔ t.pc ≠ t.vectorTarget)

/-- 20_memory.md R35: fetch is coherent with writes: bytes written at `pc` and `pc + 1` are the ones the next fetch decodes. -/
def Obligations.FetchSeesEarlierWrites : Prop :=
  ∀ (s : State) (o b1 : Byte),
    ((s.writeByte (s.pc + 1) b1).writeByte s.pc o).fetch = (o, b1, s.readByte (s.pc + 2)) ∧
      ((s.writeByte s.pc o).writeByte (s.pc + 1) b1).fetchDecode =
        decode s.decodeExt o b1 (s.readByte (s.pc + 2))

/-! ### The whole machine -/

/-- Every step keeps the invariant `State.Inv`. -/
def Obligations.StepKeepsInvariant : Prop :=
  ∀ s t : State, s.Inv → step s = .next t → t.Inv

/-- What no step does (10_state.md R1, R4, R9, R19; 20_memory.md R35, R37): it changes no cell outside the stack page, none
of `X`, `Y`, `C`, `D`, `V`, not the decode table; it clears neither `B` nor `I`; and it writes memory or `SP` only where
the byte at `pc` decodes to `BRK`. -/
def Obligations.StepFrameOfTheWholeMachine : Prop :=
  ∀ s t : State, step s = .next t →
    t.x = s.x ∧ t.y = s.y ∧ t.p.c = s.p.c ∧ t.p.d = s.p.d ∧ t.p.v = s.p.v ∧ t.decodeExt = s.decodeExt ∧
      (s.p.b = true → t.p.b = true) ∧ (s.p.i = true → t.p.i = true) ∧
      (∀ addr : Word, regionOf addr ≠ .stackPage → t.readByte addr = s.readByte addr) ∧
      t.vectorTarget = s.vectorTarget ∧
      (s.fetchDecode ≠ .instr .brk → t.mem = s.mem ∧ t.sp = s.sp ∧ t.p.b = s.p.b ∧ t.p.i = s.p.i)

/-- 10_state.md R9 (decision D13 of the spec): no instruction's behaviour depends on a flag. Two states that differ in the
flags alone step alike: same registers, same run state, and the same cells but for the pushed status byte. -/
def Obligations.FlagsSelectNothing : Prop :=
  ∀ (s : State) (q : Status),
    (∀ t : State, step s = .next t → ∃ t' : State, step (s.setP q) = .next t' ∧
      t'.a = t.a ∧ t'.x = t.x ∧ t'.y = t.y ∧ t'.sp = t.sp ∧ t'.pc = t.pc ∧ t'.runState = t.runState ∧
      t'.decodeExt = t.decodeExt ∧
      ∀ addr : Word, addr ≠ stackAddr (s.sp - 2) → t'.readByte addr = t.readByte addr) ∧
    ∀ f : Fault, step s = .fault f ↔ step (s.setP q) = .fault f

/-! ### Runs -/

/-- 40_execution_cycle.md R62: `Run` is the step repeated. A run that has halted is at the first halted state its steps
reach, and a run that has faulted is at the state, otherwise unchanged, whose step faults. That `Run` is `Cycle` repeated
is R62's own derived sentence; Faulted is decision D10 of the spec (log entry 11); `run k`, the loop followed for at most
`k` cycles, is the model's form of `Run` (log entry 19). -/
def Obligations.RunIsStepRepeated : Prop :=
  ∀ (s : State) (k : Nat),
    ((run k s).runState = .halted →
      ∃ n : Nat, 0 < n ∧ n ≤ k ∧ Sys2Proof.core.run n (s.setRunState .fetching) = .next (run k s) ∧
        ∀ (m : Nat) (u : State), 0 < m → m < n → Sys2Proof.core.run m (s.setRunState .fetching) = .next u →
          u.runState = .fetching) ∧
    ∀ r : Fault, (run k s).runState = .faulted r →
      ∃ (n : Nat) (u : State), n < k ∧ Sys2Proof.core.run n (s.setRunState .fetching) = .next u ∧
        u.runState = .fetching ∧ step u = .fault r ∧ run k s = { u with runState := .faulted r }

/-- 40_execution_cycle.md R64, 60_exceptions.md R88: the end of a run is terminal; more turns change nothing.
Faulted is decision D10 of the spec (log entry 11), and `run k` the model's form of `Run` (log entry 19). -/
def Obligations.EndOfRunIsTerminal : Prop :=
  ∀ (s : State) (k n : Nat), (run k s).runState.ended = true → run (k + n) s = run k s

/-- 40_execution_cycle.md R67 (a), an inference the spec marks as its own: from the reset state followed only by
`loadProgram`, every run of the base machine ends, within 32512 cycles (95_test_vectors.md P8 gives the bound), whatever the
program and the open reset values. Faulted is decision D10 of the spec (log entry 11), and `run k` the model's form of
`Run` (log entry 19). -/
def Obligations.EveryLoadedProgramRunEnds : Prop :=
  ∀ (cfg : Config) (bytes : List Byte) (s : State), cfg.decodeExt = [] → boot cfg bytes = .loaded s →
    (run 32512 s).runState.ended = true

/-- 40_execution_cycle.md R67 (b), an inference the spec marks as its own: a run need not end. Where every cell holds 0xA9
and `pc` is even, no number of cycles halts or faults the run, and each cycle advances `pc` by 2. `run k` is the model's
form of `Run` (log entry 19). -/
def Obligations.RunOverAllA9NeverEnds : Prop :=
  ∀ s : State, (∀ addr : Word, s.readByte addr = 0xA9) → s.pc.toNat % 2 = 0 →
    RunSafe s ∧ ¬ RunHalts s ∧ ∀ k : Nat, (run k s).pc = s.pc + BitVec.ofNat 16 (2 * k)

/-- 42_system.md R78, 40_execution_cycle.md R62, R63: a run that meets the byte 0x00 at `pc` halts, with the interrupt's
frame on the stack and `pc` at the vector target (the halt condition is decision D1 of the spec, log entry 8; `run k` is
the model's form of `Run`, log entry 19). -/
def Obligations.RunOverBrkHalts : Prop :=
  ∀ s : State, s.readByte s.pc = 0x00 →
    RunHalts s ∧ ∀ k : Nat, run (k + 1) s = s.takeSoftwareInterrupt.setRunState .halted
end

