-- ==== Sys2Proof/Laws/Decode.lean ====
section
/-! SUPPORT. What the decoder and the encoder can answer. -/

namespace Sys2Proof

@[simp] theorem Instr.ofPair_opcode (op : Opcode) (m : AddressMode) (b : Byte) : (Instr.ofPair op m b).opcode = op := by
  cases op <;> cases m <;> rfl

@[simp] theorem Instr.ofPair_mode (op : Opcode) (m : AddressMode) (b : Byte) : (Instr.ofPair op m b).mode = m := by
  cases op <;> cases m <;> rfl

/-- Everything `decode` can answer: the record of the entry's pair, or the rejection of the opcode byte. -/
theorem decode_cases (ext : List DecodeEntry) (o b1 b2 : Byte) :
    (∃ op m, lookupOpcode (decodeTable ext) o = some (op, m) ∧ decode ext o b1 b2 = .instr (Instr.ofPair op m b1)) ∨
      (lookupOpcode (decodeTable ext) o = none ∧ decode ext o b1 b2 = .unimplementedOpcode o) := by
  unfold decode
  cases h : lookupOpcode (decodeTable ext) o with
  | none => exact .inr ⟨rfl, rfl⟩
  | some e => exact .inl ⟨e.1, e.2, rfl, rfl⟩

/-- The table under any extension: the base bytes first, then the extension. -/
theorem lookupOpcode_decodeTable (ext : List DecodeEntry) (o : Byte) :
    lookupOpcode (decodeTable ext) o =
      if (0x00 : Byte) = o then some (.brk, .implicit)
      else if (0xA9 : Byte) = o then some (.lda, .immediate)
      else lookupOpcode ext o := rfl

end Sys2Proof
end

