-- ==== Sys2Proof/Laws/State.lean ====
section
/-! SUPPORT. The small lemmas of the state record and of the status register: one per field per update, each true by
unfolding, so that no later proof unfolds an update. -/

namespace Sys2Proof.Machine

@[simp] theorem State.setA_a (s : State) (v : Byte) : (s.setA v).a = v := rfl
@[simp] theorem State.setA_x (s : State) (v : Byte) : (s.setA v).x = s.x := rfl
@[simp] theorem State.setA_y (s : State) (v : Byte) : (s.setA v).y = s.y := rfl
@[simp] theorem State.setA_sp (s : State) (v : Byte) : (s.setA v).sp = s.sp := rfl
@[simp] theorem State.setA_pc (s : State) (v : Byte) : (s.setA v).pc = s.pc := rfl
@[simp] theorem State.setA_p (s : State) (v : Byte) : (s.setA v).p = s.p := rfl
@[simp] theorem State.setA_mem (s : State) (v : Byte) : (s.setA v).mem = s.mem := rfl
@[simp] theorem State.setA_runState (s : State) (v : Byte) : (s.setA v).runState = s.runState := rfl
@[simp] theorem State.setA_decodeExt (s : State) (v : Byte) : (s.setA v).decodeExt = s.decodeExt := rfl

@[simp] theorem State.setSp_a (s : State) (v : Byte) : (s.setSp v).a = s.a := rfl
@[simp] theorem State.setSp_x (s : State) (v : Byte) : (s.setSp v).x = s.x := rfl
@[simp] theorem State.setSp_y (s : State) (v : Byte) : (s.setSp v).y = s.y := rfl
@[simp] theorem State.setSp_sp (s : State) (v : Byte) : (s.setSp v).sp = v := rfl
@[simp] theorem State.setSp_pc (s : State) (v : Byte) : (s.setSp v).pc = s.pc := rfl
@[simp] theorem State.setSp_p (s : State) (v : Byte) : (s.setSp v).p = s.p := rfl
@[simp] theorem State.setSp_mem (s : State) (v : Byte) : (s.setSp v).mem = s.mem := rfl
@[simp] theorem State.setSp_runState (s : State) (v : Byte) : (s.setSp v).runState = s.runState := rfl
@[simp] theorem State.setSp_decodeExt (s : State) (v : Byte) : (s.setSp v).decodeExt = s.decodeExt := rfl

@[simp] theorem State.setPc_a (s : State) (t : Word) : (s.setPc t).a = s.a := rfl
@[simp] theorem State.setPc_x (s : State) (t : Word) : (s.setPc t).x = s.x := rfl
@[simp] theorem State.setPc_y (s : State) (t : Word) : (s.setPc t).y = s.y := rfl
@[simp] theorem State.setPc_sp (s : State) (t : Word) : (s.setPc t).sp = s.sp := rfl
@[simp] theorem State.setPc_pc (s : State) (t : Word) : (s.setPc t).pc = t := rfl
@[simp] theorem State.setPc_p (s : State) (t : Word) : (s.setPc t).p = s.p := rfl
@[simp] theorem State.setPc_mem (s : State) (t : Word) : (s.setPc t).mem = s.mem := rfl
@[simp] theorem State.setPc_runState (s : State) (t : Word) : (s.setPc t).runState = s.runState := rfl
@[simp] theorem State.setPc_decodeExt (s : State) (t : Word) : (s.setPc t).decodeExt = s.decodeExt := rfl

@[simp] theorem State.setP_a (s : State) (q : Status) : (s.setP q).a = s.a := rfl
@[simp] theorem State.setP_x (s : State) (q : Status) : (s.setP q).x = s.x := rfl
@[simp] theorem State.setP_y (s : State) (q : Status) : (s.setP q).y = s.y := rfl
@[simp] theorem State.setP_sp (s : State) (q : Status) : (s.setP q).sp = s.sp := rfl
@[simp] theorem State.setP_pc (s : State) (q : Status) : (s.setP q).pc = s.pc := rfl
@[simp] theorem State.setP_p (s : State) (q : Status) : (s.setP q).p = q := rfl
@[simp] theorem State.setP_mem (s : State) (q : Status) : (s.setP q).mem = s.mem := rfl
@[simp] theorem State.setP_runState (s : State) (q : Status) : (s.setP q).runState = s.runState := rfl
@[simp] theorem State.setP_decodeExt (s : State) (q : Status) : (s.setP q).decodeExt = s.decodeExt := rfl

@[simp] theorem State.setMem_a (s : State) (m : Memory) : (s.setMem m).a = s.a := rfl
@[simp] theorem State.setMem_x (s : State) (m : Memory) : (s.setMem m).x = s.x := rfl
@[simp] theorem State.setMem_y (s : State) (m : Memory) : (s.setMem m).y = s.y := rfl
@[simp] theorem State.setMem_sp (s : State) (m : Memory) : (s.setMem m).sp = s.sp := rfl
@[simp] theorem State.setMem_pc (s : State) (m : Memory) : (s.setMem m).pc = s.pc := rfl
@[simp] theorem State.setMem_p (s : State) (m : Memory) : (s.setMem m).p = s.p := rfl
@[simp] theorem State.setMem_mem (s : State) (m : Memory) : (s.setMem m).mem = m := rfl
@[simp] theorem State.setMem_runState (s : State) (m : Memory) : (s.setMem m).runState = s.runState := rfl
@[simp] theorem State.setMem_decodeExt (s : State) (m : Memory) : (s.setMem m).decodeExt = s.decodeExt := rfl

@[simp] theorem State.setRunState_a (s : State) (r : RunState) : (s.setRunState r).a = s.a := rfl
@[simp] theorem State.setRunState_x (s : State) (r : RunState) : (s.setRunState r).x = s.x := rfl
@[simp] theorem State.setRunState_y (s : State) (r : RunState) : (s.setRunState r).y = s.y := rfl
@[simp] theorem State.setRunState_sp (s : State) (r : RunState) : (s.setRunState r).sp = s.sp := rfl
@[simp] theorem State.setRunState_pc (s : State) (r : RunState) : (s.setRunState r).pc = s.pc := rfl
@[simp] theorem State.setRunState_p (s : State) (r : RunState) : (s.setRunState r).p = s.p := rfl
@[simp] theorem State.setRunState_mem (s : State) (r : RunState) : (s.setRunState r).mem = s.mem := rfl
@[simp] theorem State.setRunState_runState (s : State) (r : RunState) : (s.setRunState r).runState = r := rfl
@[simp] theorem State.setRunState_decodeExt (s : State) (r : RunState) : (s.setRunState r).decodeExt = s.decodeExt := rfl

@[simp] theorem State.writeByte_a (s : State) (addr : Word) (v : Byte) : (s.writeByte addr v).a = s.a := rfl
@[simp] theorem State.writeByte_x (s : State) (addr : Word) (v : Byte) : (s.writeByte addr v).x = s.x := rfl
@[simp] theorem State.writeByte_y (s : State) (addr : Word) (v : Byte) : (s.writeByte addr v).y = s.y := rfl
@[simp] theorem State.writeByte_sp (s : State) (addr : Word) (v : Byte) : (s.writeByte addr v).sp = s.sp := rfl
@[simp] theorem State.writeByte_pc (s : State) (addr : Word) (v : Byte) : (s.writeByte addr v).pc = s.pc := rfl
@[simp] theorem State.writeByte_p (s : State) (addr : Word) (v : Byte) : (s.writeByte addr v).p = s.p := rfl
@[simp] theorem State.writeByte_runState (s : State) (addr : Word) (v : Byte) : (s.writeByte addr v).runState = s.runState := rfl
@[simp] theorem State.writeByte_decodeExt (s : State) (addr : Word) (v : Byte) : (s.writeByte addr v).decodeExt = s.decodeExt := rfl
theorem State.writeByte_mem (s : State) (addr : Word) (v : Byte) : (s.writeByte addr v).mem = s.mem.write addr v := rfl

@[simp] theorem State.push_a (s : State) (v : Byte) : (s.push v).a = s.a := rfl
@[simp] theorem State.push_x (s : State) (v : Byte) : (s.push v).x = s.x := rfl
@[simp] theorem State.push_y (s : State) (v : Byte) : (s.push v).y = s.y := rfl
@[simp] theorem State.push_sp (s : State) (v : Byte) : (s.push v).sp = s.sp - 1 := rfl
@[simp] theorem State.push_pc (s : State) (v : Byte) : (s.push v).pc = s.pc := rfl
@[simp] theorem State.push_p (s : State) (v : Byte) : (s.push v).p = s.p := rfl
@[simp] theorem State.push_runState (s : State) (v : Byte) : (s.push v).runState = s.runState := rfl
@[simp] theorem State.push_decodeExt (s : State) (v : Byte) : (s.push v).decodeExt = s.decodeExt := rfl
theorem State.push_mem (s : State) (v : Byte) : (s.push v).mem = s.mem.write (stackAddr s.sp) v := rfl

@[simp] theorem State.loadAccumulator_a (s : State) (m : AddressMode) (v : Byte) : (s.loadAccumulator m v).a = v := rfl
@[simp] theorem State.loadAccumulator_x (s : State) (m : AddressMode) (v : Byte) : (s.loadAccumulator m v).x = s.x := rfl
@[simp] theorem State.loadAccumulator_y (s : State) (m : AddressMode) (v : Byte) : (s.loadAccumulator m v).y = s.y := rfl
@[simp] theorem State.loadAccumulator_sp (s : State) (m : AddressMode) (v : Byte) : (s.loadAccumulator m v).sp = s.sp := rfl
@[simp] theorem State.loadAccumulator_pc (s : State) (m : AddressMode) (v : Byte) : (s.loadAccumulator m v).pc = s.pc + lenWord m := rfl
@[simp] theorem State.loadAccumulator_p (s : State) (m : AddressMode) (v : Byte) : (s.loadAccumulator m v).p = s.p.afterLoad v := rfl
@[simp] theorem State.loadAccumulator_mem (s : State) (m : AddressMode) (v : Byte) : (s.loadAccumulator m v).mem = s.mem := rfl
@[simp] theorem State.loadAccumulator_runState (s : State) (m : AddressMode) (v : Byte) : (s.loadAccumulator m v).runState = s.runState := rfl
@[simp] theorem State.loadAccumulator_decodeExt (s : State) (m : AddressMode) (v : Byte) : (s.loadAccumulator m v).decodeExt = s.decodeExt := rfl

@[simp] theorem State.leaveExecuting_a (s : State) : s.leaveExecuting.a = s.a := rfl
@[simp] theorem State.leaveExecuting_x (s : State) : s.leaveExecuting.x = s.x := rfl
@[simp] theorem State.leaveExecuting_y (s : State) : s.leaveExecuting.y = s.y := rfl
@[simp] theorem State.leaveExecuting_sp (s : State) : s.leaveExecuting.sp = s.sp := rfl
@[simp] theorem State.leaveExecuting_pc (s : State) : s.leaveExecuting.pc = s.pc := rfl
@[simp] theorem State.leaveExecuting_p (s : State) : s.leaveExecuting.p = s.p := rfl
@[simp] theorem State.leaveExecuting_mem (s : State) : s.leaveExecuting.mem = s.mem := rfl
@[simp] theorem State.leaveExecuting_runState (s : State) : s.leaveExecuting.runState = if s.haltCondition then .halted else .fetching := rfl
@[simp] theorem State.leaveExecuting_decodeExt (s : State) : s.leaveExecuting.decodeExt = s.decodeExt := rfl

@[simp] theorem State.setA_readByte (s : State) (v : Byte) (addr : Word) : (s.setA v).readByte addr = s.readByte addr := rfl
@[simp] theorem State.setA_vectorTarget (s : State) (v : Byte) : (s.setA v).vectorTarget = s.vectorTarget := rfl
@[simp] theorem State.setSp_readByte (s : State) (v : Byte) (addr : Word) : (s.setSp v).readByte addr = s.readByte addr := rfl
@[simp] theorem State.setSp_vectorTarget (s : State) (v : Byte) : (s.setSp v).vectorTarget = s.vectorTarget := rfl
@[simp] theorem State.setPc_readByte (s : State) (t : Word) (addr : Word) : (s.setPc t).readByte addr = s.readByte addr := rfl
@[simp] theorem State.setPc_vectorTarget (s : State) (t : Word) : (s.setPc t).vectorTarget = s.vectorTarget := rfl
@[simp] theorem State.setP_readByte (s : State) (q : Status) (addr : Word) : (s.setP q).readByte addr = s.readByte addr := rfl
@[simp] theorem State.setP_vectorTarget (s : State) (q : Status) : (s.setP q).vectorTarget = s.vectorTarget := rfl
@[simp] theorem State.setRunState_readByte (s : State) (r : RunState) (addr : Word) : (s.setRunState r).readByte addr = s.readByte addr := rfl
@[simp] theorem State.setRunState_vectorTarget (s : State) (r : RunState) : (s.setRunState r).vectorTarget = s.vectorTarget := rfl
@[simp] theorem State.loadAccumulator_readByte (s : State) (m : AddressMode) (v : Byte) (addr : Word) : (s.loadAccumulator m v).readByte addr = s.readByte addr := rfl
@[simp] theorem State.loadAccumulator_vectorTarget (s : State) (m : AddressMode) (v : Byte) : (s.loadAccumulator m v).vectorTarget = s.vectorTarget := rfl
@[simp] theorem State.leaveExecuting_readByte (s : State) (addr : Word) : s.leaveExecuting.readByte addr = s.readByte addr := rfl
@[simp] theorem State.leaveExecuting_vectorTarget (s : State) : s.leaveExecuting.vectorTarget = s.vectorTarget := rfl

@[simp] theorem Status.setC_c (p : Status) (f : Bool) : (p.setC f).c = f := rfl
@[simp] theorem Status.setC_z (p : Status) (f : Bool) : (p.setC f).z = p.z := rfl
@[simp] theorem Status.setC_i (p : Status) (f : Bool) : (p.setC f).i = p.i := rfl
@[simp] theorem Status.setC_d (p : Status) (f : Bool) : (p.setC f).d = p.d := rfl
@[simp] theorem Status.setC_b (p : Status) (f : Bool) : (p.setC f).b = p.b := rfl
@[simp] theorem Status.setC_v (p : Status) (f : Bool) : (p.setC f).v = p.v := rfl
@[simp] theorem Status.setC_n (p : Status) (f : Bool) : (p.setC f).n = p.n := rfl
@[simp] theorem Status.setZ_c (p : Status) (f : Bool) : (p.setZ f).c = p.c := rfl
@[simp] theorem Status.setZ_z (p : Status) (f : Bool) : (p.setZ f).z = f := rfl
@[simp] theorem Status.setZ_i (p : Status) (f : Bool) : (p.setZ f).i = p.i := rfl
@[simp] theorem Status.setZ_d (p : Status) (f : Bool) : (p.setZ f).d = p.d := rfl
@[simp] theorem Status.setZ_b (p : Status) (f : Bool) : (p.setZ f).b = p.b := rfl
@[simp] theorem Status.setZ_v (p : Status) (f : Bool) : (p.setZ f).v = p.v := rfl
@[simp] theorem Status.setZ_n (p : Status) (f : Bool) : (p.setZ f).n = p.n := rfl
@[simp] theorem Status.setI_c (p : Status) (f : Bool) : (p.setI f).c = p.c := rfl
@[simp] theorem Status.setI_z (p : Status) (f : Bool) : (p.setI f).z = p.z := rfl
@[simp] theorem Status.setI_i (p : Status) (f : Bool) : (p.setI f).i = f := rfl
@[simp] theorem Status.setI_d (p : Status) (f : Bool) : (p.setI f).d = p.d := rfl
@[simp] theorem Status.setI_b (p : Status) (f : Bool) : (p.setI f).b = p.b := rfl
@[simp] theorem Status.setI_v (p : Status) (f : Bool) : (p.setI f).v = p.v := rfl
@[simp] theorem Status.setI_n (p : Status) (f : Bool) : (p.setI f).n = p.n := rfl
@[simp] theorem Status.setD_c (p : Status) (f : Bool) : (p.setD f).c = p.c := rfl
@[simp] theorem Status.setD_z (p : Status) (f : Bool) : (p.setD f).z = p.z := rfl
@[simp] theorem Status.setD_i (p : Status) (f : Bool) : (p.setD f).i = p.i := rfl
@[simp] theorem Status.setD_d (p : Status) (f : Bool) : (p.setD f).d = f := rfl
@[simp] theorem Status.setD_b (p : Status) (f : Bool) : (p.setD f).b = p.b := rfl
@[simp] theorem Status.setD_v (p : Status) (f : Bool) : (p.setD f).v = p.v := rfl
@[simp] theorem Status.setD_n (p : Status) (f : Bool) : (p.setD f).n = p.n := rfl
@[simp] theorem Status.setB_c (p : Status) (f : Bool) : (p.setB f).c = p.c := rfl
@[simp] theorem Status.setB_z (p : Status) (f : Bool) : (p.setB f).z = p.z := rfl
@[simp] theorem Status.setB_i (p : Status) (f : Bool) : (p.setB f).i = p.i := rfl
@[simp] theorem Status.setB_d (p : Status) (f : Bool) : (p.setB f).d = p.d := rfl
@[simp] theorem Status.setB_b (p : Status) (f : Bool) : (p.setB f).b = f := rfl
@[simp] theorem Status.setB_v (p : Status) (f : Bool) : (p.setB f).v = p.v := rfl
@[simp] theorem Status.setB_n (p : Status) (f : Bool) : (p.setB f).n = p.n := rfl
@[simp] theorem Status.setV_c (p : Status) (f : Bool) : (p.setV f).c = p.c := rfl
@[simp] theorem Status.setV_z (p : Status) (f : Bool) : (p.setV f).z = p.z := rfl
@[simp] theorem Status.setV_i (p : Status) (f : Bool) : (p.setV f).i = p.i := rfl
@[simp] theorem Status.setV_d (p : Status) (f : Bool) : (p.setV f).d = p.d := rfl
@[simp] theorem Status.setV_b (p : Status) (f : Bool) : (p.setV f).b = p.b := rfl
@[simp] theorem Status.setV_v (p : Status) (f : Bool) : (p.setV f).v = f := rfl
@[simp] theorem Status.setV_n (p : Status) (f : Bool) : (p.setV f).n = p.n := rfl
@[simp] theorem Status.setN_c (p : Status) (f : Bool) : (p.setN f).c = p.c := rfl
@[simp] theorem Status.setN_z (p : Status) (f : Bool) : (p.setN f).z = p.z := rfl
@[simp] theorem Status.setN_i (p : Status) (f : Bool) : (p.setN f).i = p.i := rfl
@[simp] theorem Status.setN_d (p : Status) (f : Bool) : (p.setN f).d = p.d := rfl
@[simp] theorem Status.setN_b (p : Status) (f : Bool) : (p.setN f).b = p.b := rfl
@[simp] theorem Status.setN_v (p : Status) (f : Bool) : (p.setN f).v = p.v := rfl
@[simp] theorem Status.setN_n (p : Status) (f : Bool) : (p.setN f).n = f := rfl

@[simp] theorem Status.afterLoad_c (p : Status) (v : Byte) : (p.afterLoad v).c = p.c := rfl
@[simp] theorem Status.afterLoad_z (p : Status) (v : Byte) : (p.afterLoad v).z = zeroFlag v := rfl
@[simp] theorem Status.afterLoad_i (p : Status) (v : Byte) : (p.afterLoad v).i = p.i := rfl
@[simp] theorem Status.afterLoad_d (p : Status) (v : Byte) : (p.afterLoad v).d = p.d := rfl
@[simp] theorem Status.afterLoad_b (p : Status) (v : Byte) : (p.afterLoad v).b = p.b := rfl
@[simp] theorem Status.afterLoad_v (p : Status) (v : Byte) : (p.afterLoad v).v = p.v := rfl
@[simp] theorem Status.afterLoad_n (p : Status) (v : Byte) : (p.afterLoad v).n = negativeFlag v := rfl
@[simp] theorem Status.afterBreak_c (p : Status) : p.afterBreak.c = p.c := rfl
@[simp] theorem Status.afterBreak_z (p : Status) : p.afterBreak.z = p.z := rfl
@[simp] theorem Status.afterBreak_i (p : Status) : p.afterBreak.i = true := rfl
@[simp] theorem Status.afterBreak_d (p : Status) : p.afterBreak.d = p.d := rfl
@[simp] theorem Status.afterBreak_b (p : Status) : p.afterBreak.b = true := rfl
@[simp] theorem Status.afterBreak_v (p : Status) : p.afterBreak.v = p.v := rfl
@[simp] theorem Status.afterBreak_n (p : Status) : p.afterBreak.n = p.n := rfl

end Sys2Proof.Machine
end

