-- ==== Sys2Proof/Laws/Memory.lean ====
section
/-! SUPPORT. The laws of the memory bus: read after write, and the canonical form every operation keeps. -/

namespace Sys2Proof.Machine

theorem Memory.read_erase_same (m : Memory) (addr : Word) :
    Memory.read (Memory.erase addr.toNat m) addr = Config.unlistedByte := by
  induction m with
  | nil => rfl
  | cons e t ih =>
    obtain ⟨k, v⟩ := e
    by_cases h : k = addr.toNat <;> simp [Memory.erase, Memory.read, h, ih]

theorem Memory.read_erase_other (m : Memory) (addr other : Word) (h : other ≠ addr) :
    Memory.read (Memory.erase addr.toNat m) other = Memory.read m other := by
  have hn : addr.toNat ≠ other.toNat := fun e => h (BitVec.eq_of_toNat_eq e.symm)
  induction m with
  | nil => rfl
  | cons e t ih =>
    obtain ⟨k, v⟩ := e
    by_cases hk : k = addr.toNat
    · subst hk; simp [Memory.erase, Memory.read, hn, ih]
    · simp [Memory.erase, Memory.read, hk, ih]

/-- Inserting an entry that is not listed puts it in front of every read of its address. -/
theorem Memory.read_insert (m : Memory) (addr other : Word) (v : Byte)
    (h : Memory.erase addr.toNat m = m) :
    Memory.read (Memory.insert addr.toNat v m) other = if other = addr then v else Memory.read m other := by
  induction m with
  | nil =>
    by_cases e : other = addr
    · simp [Memory.insert, Memory.read, e]
    · have hn : addr.toNat ≠ other.toNat := fun q => e (BitVec.eq_of_toNat_eq q.symm)
      simp [Memory.insert, Memory.read, e, hn]
  | cons hd t ih =>
    obtain ⟨k, w⟩ := hd
    have hk : k ≠ addr.toNat := by
      intro hk
      have := congrArg List.length h
      have hle : ∀ l : Memory, (Memory.erase addr.toNat l).length ≤ l.length := by
        intro l
        induction l with
        | nil => simp [Memory.erase]
        | cons e l ih => simp only [Memory.erase]; split <;> simp <;> omega
      have := hle t
      simp [Memory.erase, hk] at *
      omega
    have ht : Memory.erase addr.toNat t = t := by simpa [Memory.erase, hk] using h
    by_cases lt : addr.toNat < k
    · by_cases e : other = addr
      · simp [Memory.insert, Memory.read, lt, e]
      · have hn : addr.toNat ≠ other.toNat := fun q => e (BitVec.eq_of_toNat_eq q.symm)
        simp [Memory.insert, Memory.read, lt, e, hn]
    · by_cases e : other = addr
      · subst e
        simp [Memory.insert, Memory.read, lt, ih ht, hk]
      · simp [Memory.insert, Memory.read, lt, ih ht, e]

theorem Memory.erase_erase (k : Nat) (m : Memory) : Memory.erase k (Memory.erase k m) = Memory.erase k m := by
  induction m with
  | nil => rfl
  | cons e t ih =>
    obtain ⟨k', v⟩ := e
    by_cases h : k' = k <;> simp [Memory.erase, h, ih]

/-- What a write does to every read: the one cell it names, and no other. -/
theorem Memory.read_write (m : Memory) (addr other : Word) (v : Byte) :
    Memory.read (Memory.write m addr v) other = if other = addr then v else Memory.read m other := by
  unfold Memory.write
  by_cases hv : v = Config.unlistedByte
  · rw [if_pos hv]
    by_cases e : other = addr
    · subst e; simp [Memory.read_erase_same, hv]
    · simp [Memory.read_erase_other _ _ _ e, e]
  · rw [if_neg hv, Memory.read_insert _ _ _ _ (Memory.erase_erase _ _)]
    by_cases e : other = addr
    · simp [e]
    · simp [Memory.read_erase_other _ _ _ e, e]

/-! ### The canonical form -/

theorem Memory.wfFrom_cons {low k : Nat} {v : Byte} {t : Memory} :
    Memory.wfFrom low ((k, v) :: t) = true ↔
      low ≤ k ∧ k < 65536 ∧ v ≠ Config.unlistedByte ∧ Memory.wfFrom (k + 1) t = true := by
  simp [Memory.wfFrom, and_assoc]

theorem Memory.wfFrom_mono {low low' : Nat} {m : Memory} (h : Memory.wfFrom low m = true) (hl : low' ≤ low) :
    Memory.wfFrom low' m = true := by
  cases m with
  | nil => rfl
  | cons e t =>
    obtain ⟨k, v⟩ := e
    rw [Memory.wfFrom_cons] at h ⊢
    exact ⟨by omega, h.2⟩

theorem Memory.wfFrom_erase {low : Nat} {m : Memory} (k : Nat) (h : Memory.wfFrom low m = true) :
    Memory.wfFrom low (Memory.erase k m) = true := by
  induction m generalizing low with
  | nil => rfl
  | cons e t ih =>
    obtain ⟨k', v⟩ := e
    rw [Memory.wfFrom_cons] at h
    simp only [Memory.erase]
    split
    · exact ih (Memory.wfFrom_mono h.2.2.2 (by omega))
    · rw [Memory.wfFrom_cons]; exact ⟨h.1, h.2.1, h.2.2.1, ih h.2.2.2⟩

theorem Memory.erase_lower {low k : Nat} {m : Memory} (h : Memory.wfFrom low m = true) (hk : k < low) :
    Memory.erase k m = m := by
  induction m generalizing low with
  | nil => rfl
  | cons e t ih =>
    obtain ⟨k', v⟩ := e
    rw [Memory.wfFrom_cons] at h
    have : k' ≠ k := by omega
    simp [Memory.erase, this, ih h.2.2.2 (by omega)]

theorem Memory.wfFrom_insert {low k : Nat} {v : Byte} {m : Memory} (h : Memory.wfFrom low m = true)
    (hm : Memory.erase k m = m) (hlow : low ≤ k) (hk : k < 65536) (hv : v ≠ Config.unlistedByte) :
    Memory.wfFrom low (Memory.insert k v m) = true := by
  induction m generalizing low with
  | nil => simp [Memory.insert, Memory.wfFrom, hlow, hk, hv]
  | cons e t ih =>
    obtain ⟨k', w⟩ := e
    rw [Memory.wfFrom_cons] at h
    simp only [Memory.insert]
    split
    · simp only [Memory.wfFrom_cons]
      exact ⟨hlow, hk, hv, by omega, h.2.1, h.2.2.1, h.2.2.2⟩
    · have hne : k' ≠ k := by
        intro he
        have hlen : ∀ l : Memory, (Memory.erase k l).length ≤ l.length := by
          intro l
          induction l with
          | nil => simp [Memory.erase]
          | cons e l ih => simp only [Memory.erase]; split <;> simp <;> omega
        have := congrArg List.length hm
        have := hlen t
        simp [Memory.erase, he] at *
        omega
      rw [Memory.wfFrom_cons]
      exact ⟨h.1, h.2.1, h.2.2.1, ih h.2.2.2 (by simpa [Memory.erase, hne] using hm) (by omega)⟩

/-- Every write keeps the canonical form. -/
theorem Memory.wf_write {m : Memory} (addr : Word) (v : Byte) (h : m.wf = true) : (m.write addr v).wf = true := by
  unfold Memory.write Memory.wf
  split
  · exact Memory.wfFrom_erase _ h
  · exact Memory.wfFrom_insert (Memory.wfFrom_erase _ h) (Memory.erase_erase _ _) (Nat.zero_le _) addr.isLt ‹_›

theorem State.reset_mem_wf : State.reset.mem.wf = true := rfl

theorem State.construct_mem_wf (cfg : Config) : (State.construct cfg).mem.wf = true := rfl

/-! ### The same laws on the state -/

theorem State.readByte_writeByte (s : State) (addr other : Word) (v : Byte) :
    (s.writeByte addr v).readByte other = if other = addr then v else s.readByte other :=
  Memory.read_write s.mem addr other v

theorem State.writeByte_wf {s : State} (addr : Word) (v : Byte) (h : s.mem.wf = true) :
    (s.writeByte addr v).mem.wf = true :=
  Memory.wf_write addr v h

end Sys2Proof.Machine
end

