-- ==== Sys2Proof/Laws/Ops.lean ====
section
/-! SUPPORT. What each shared operation can do, said once: the stack, the software-interrupt entry, the storing of bytes. -/

namespace Sys2Proof.Machine

theorem stackAddr_toNat (sp : Byte) : (stackAddr sp).toNat = 256 + sp.toNat := by
  have := sp.isLt
  simp [stackAddr, zext16, Config.stackBase, BitVec.toNat_add]
  omega

theorem stackAddr_inj {sp sp' : Byte} : stackAddr sp = stackAddr sp' ↔ sp = sp' := by
  constructor
  · intro h
    have := congrArg BitVec.toNat h
    rw [stackAddr_toNat, stackAddr_toNat] at this
    exact BitVec.eq_of_toNat_eq (by omega)
  · exact fun h => h ▸ rfl

theorem regionOf_stackAddr (sp : Byte) : regionOf (stackAddr sp) = .stackPage := by
  have := sp.isLt
  have h := stackAddr_toNat sp
  unfold regionOf
  rw [if_neg (by omega), if_pos (by omega)]

theorem ivec_ne_stackAddr (sp : Byte) : Config.ivec ≠ stackAddr sp := by
  intro h
  have := congrArg BitVec.toNat h
  rw [stackAddr_toNat] at this
  have := sp.isLt
  simp [Config.ivec] at *
  omega

theorem ivec_succ_ne_stackAddr (sp : Byte) : Config.ivec + 1 ≠ stackAddr sp := by
  intro h
  have := congrArg BitVec.toNat h
  rw [stackAddr_toNat] at this
  have := sp.isLt
  simp [Config.ivec] at *
  omega

/-- `Push` writes the one cell `SP` designates. -/
theorem State.push_readByte (s : State) (v : Byte) (addr : Word) :
    (s.push v).readByte addr = if addr = stackAddr s.sp then v else s.readByte addr :=
  State.readByte_writeByte s (stackAddr s.sp) addr v

theorem State.push_wf {s : State} (v : Byte) (h : s.mem.wf = true) : (s.push v).mem.wf = true :=
  State.writeByte_wf (stackAddr s.sp) v h

theorem State.push_vectorTarget (s : State) (v : Byte) : (s.push v).vectorTarget = s.vectorTarget := by
  simp only [State.vectorTarget, State.read16LE, State.push_readByte, if_neg (ivec_ne_stackAddr s.sp),
    if_neg (ivec_succ_ne_stackAddr s.sp)]

theorem sub_one_one (sp : Byte) : sp - 1 - 1 = sp - 2 := BitVec.sub_sub sp 1 1

theorem sub_one_one_one (sp : Byte) : sp - 1 - 1 - 1 = sp - 3 := by
  rw [BitVec.sub_sub, BitVec.sub_sub]
  rfl

/-- Saving the frame moves `SP` by three and touches no other register. -/
theorem State.pushFrame_registers (s : State) :
    s.pushFrame.a = s.a ∧ s.pushFrame.x = s.x ∧ s.pushFrame.y = s.y ∧ s.pushFrame.sp = s.sp - 3 ∧
      s.pushFrame.pc = s.pc ∧ s.pushFrame.p = s.p ∧ s.pushFrame.runState = s.runState ∧
      s.pushFrame.decodeExt = s.decodeExt := by
  simp only [State.pushFrame, State.push_a, State.push_x, State.push_y, State.push_sp, State.push_pc, State.push_p,
    State.push_runState, State.push_decodeExt, sub_one_one_one, and_self]

/-- What saving the frame leaves in each cell: the last pushed byte stands where two addresses meet (none do). -/
theorem State.pushFrame_readByte (s : State) (addr : Word) :
    s.pushFrame.readByte addr =
      if addr = stackAddr (s.sp - 2) then asByte s.p
      else if addr = stackAddr (s.sp - 1) then lo s.pc
      else if addr = stackAddr s.sp then hi s.pc
      else s.readByte addr := by
  simp only [State.pushFrame, State.push_readByte, State.push_sp, sub_one_one]

theorem State.pushFrame_vectorTarget (s : State) : s.pushFrame.vectorTarget = s.vectorTarget := by
  simp only [State.pushFrame, State.push_vectorTarget]

theorem State.pushFrame_wf {s : State} (h : s.mem.wf = true) : s.pushFrame.mem.wf = true :=
  State.push_wf _ (State.push_wf _ (State.push_wf _ h))

/-- Everything taking the software interrupt does to the registers, the flags and the configuration. -/
theorem State.takeSoftwareInterrupt_registers (s : State) :
    s.takeSoftwareInterrupt.a = s.a ∧ s.takeSoftwareInterrupt.x = s.x ∧ s.takeSoftwareInterrupt.y = s.y ∧
      s.takeSoftwareInterrupt.sp = s.sp - 3 ∧ s.takeSoftwareInterrupt.pc = s.vectorTarget ∧
      s.takeSoftwareInterrupt.p = s.p.afterBreak ∧ s.takeSoftwareInterrupt.runState = s.runState ∧
      s.takeSoftwareInterrupt.decodeExt = s.decodeExt := by
  obtain ⟨ha, hx, hy, hsp, -, hp, hr, hd⟩ :=
    State.pushFrame_registers ((s.setPc (s.pc + 2)).setP s.p.afterBreak)
  simp only [State.takeSoftwareInterrupt, State.jumpThroughVector, State.setPc_a, State.setPc_x, State.setPc_y,
    State.setPc_sp, State.setPc_pc, State.setPc_p, State.setPc_runState, State.setPc_decodeExt, ha, hx, hy, hsp, hp, hr,
    hd, State.pushFrame_vectorTarget, State.setP_a, State.setP_x, State.setP_y, State.setP_sp, State.setP_p,
    State.setP_runState, State.setP_decodeExt, State.setP_vectorTarget, State.setPc_vectorTarget, and_self]

/-- Everything taking the software interrupt does to memory. -/
theorem State.takeSoftwareInterrupt_readByte (s : State) (addr : Word) :
    s.takeSoftwareInterrupt.readByte addr =
      if addr = stackAddr (s.sp - 2) then asByte s.p.afterBreak
      else if addr = stackAddr (s.sp - 1) then lo (s.pc + 2)
      else if addr = stackAddr s.sp then hi (s.pc + 2)
      else s.readByte addr := by
  simp only [State.takeSoftwareInterrupt, State.jumpThroughVector, State.setPc_readByte, State.pushFrame_readByte,
    State.setP_sp, State.setP_p, State.setP_pc, State.setP_readByte, State.setPc_sp, State.setPc_pc]
  rfl

theorem State.takeSoftwareInterrupt_vectorTarget (s : State) :
    s.takeSoftwareInterrupt.vectorTarget = s.vectorTarget := by
  simp only [State.takeSoftwareInterrupt, State.jumpThroughVector, State.setPc_vectorTarget,
    State.pushFrame_vectorTarget, State.setP_vectorTarget]

theorem State.takeSoftwareInterrupt_wf {s : State} (h : s.mem.wf = true) :
    s.takeSoftwareInterrupt.mem.wf = true := by
  simp only [State.takeSoftwareInterrupt, State.jumpThroughVector, State.setPc_mem]
  exact State.pushFrame_wf (by simpa only [State.setP_mem, State.setPc_mem] using h)

/-- The run state passes through the interrupt entry untouched. -/
theorem State.takeSoftwareInterrupt_setRunState (s : State) (r : RunState) :
    (s.setRunState r).takeSoftwareInterrupt = s.takeSoftwareInterrupt.setRunState r := rfl

@[simp] theorem State.setRunState_setRunState (s : State) (r r' : RunState) :
    (s.setRunState r).setRunState r' = s.setRunState r' := rfl

/-! ### Storing a sequence of bytes -/

/-- Storing bytes touches memory and nothing else. -/
theorem State.storeBytes_registers (s : State) (addr : Word) (bs : List Byte) :
    (s.storeBytes addr bs).a = s.a ∧ (s.storeBytes addr bs).x = s.x ∧ (s.storeBytes addr bs).y = s.y ∧
      (s.storeBytes addr bs).sp = s.sp ∧ (s.storeBytes addr bs).pc = s.pc ∧ (s.storeBytes addr bs).p = s.p ∧
      (s.storeBytes addr bs).runState = s.runState ∧ (s.storeBytes addr bs).decodeExt = s.decodeExt := by
  induction bs generalizing s addr with
  | nil => exact ⟨rfl, rfl, rfl, rfl, rfl, rfl, rfl, rfl⟩
  | cons b bs ih => simpa [State.storeBytes] using ih (s.writeByte addr b) (addr + 1)

theorem State.storeBytes_wf {s : State} (addr : Word) (bs : List Byte) (h : s.mem.wf = true) :
    (s.storeBytes addr bs).mem.wf = true := by
  induction bs generalizing s addr with
  | nil => exact h
  | cons b bs ih => exact ih _ (State.writeByte_wf addr b h)

/-- What a sequence that does not run past the top of memory leaves in each cell. -/
theorem State.storeBytes_readByte (s : State) (addr other : Word) (bs : List Byte)
    (h : addr.toNat + bs.length ≤ 65536) :
    (s.storeBytes addr bs).readByte other =
      if addr.toNat ≤ other.toNat ∧ other.toNat < addr.toNat + bs.length
      then bs.getD (other.toNat - addr.toNat) 0 else s.readByte other := by
  induction bs generalizing s addr with
  | nil =>
    rw [if_neg (by simp)]; rfl
  | cons b bs ih =>
    simp only [List.length_cons] at h ⊢
    have hlt := addr.isLt
    by_cases hb : bs = []
    · subst hb
      simp only [State.storeBytes, State.readByte_writeByte, List.length_nil]
      by_cases e : other = addr
      · subst e; simp
      · rw [if_neg e, if_neg]
        intro hh
        exact e (BitVec.eq_of_toNat_eq (by omega))
    have hpos : 0 < bs.length := List.length_pos_iff.mpr hb
    have hsucc : (addr + 1).toNat = addr.toNat + 1 := by
      rw [BitVec.toNat_add]
      show (addr.toNat + 1) % 65536 = _
      omega
    rw [State.storeBytes, ih (s.writeByte addr b) (addr + 1) (by omega), State.readByte_writeByte, hsucc]
    by_cases e : other = addr
    · subst e
      rw [if_neg (by omega), if_pos rfl, if_pos (by omega)]
      simp
    · have hne : other.toNat ≠ addr.toNat := fun q => e (BitVec.eq_of_toNat_eq q)
      rw [if_neg e]
      by_cases hin : addr.toNat + 1 ≤ other.toNat ∧ other.toNat < addr.toNat + 1 + bs.length
      · rw [if_pos hin, if_pos (by omega)]
        have : other.toNat - addr.toNat = (other.toNat - (addr.toNat + 1)) + 1 := by omega
        rw [this, List.getD_cons_succ]
      · rw [if_neg hin, if_neg (by omega)]

end Sys2Proof.Machine
end

