-- ==== Sys2Proof/Laws/Exec.lean ====
section
/-! SUPPORT. What `exec`, a cycle and a step can do, said once per function. -/

namespace Sys2Proof.Machine

/-- The operand byte of an instruction, 0x00 where its mode has none. -/
def operandByte (i : Instr) : Byte := i.operand1.getD 0x00

/-- Everything `ExecLDA` can answer. -/
theorem execLda_next {m : AddressMode} {b : Byte} {s t : State} :
    execLda m b s = .next t ↔ ∃ v, resolveOperandValue m b s = some v ∧ t = s.loadAccumulator m v := by
  unfold execLda
  cases h : resolveOperandValue m b s with
  | none => simp [State.raiseInternalConsistency]
  | some v => simp [eq_comm]

/-- Every instruction is one of the two handlers on its own mode (40_execution_cycle.md R52). -/
theorem exec_eq_handler (i : Instr) (s : State) :
    exec i s = match i.opcode with
      | .lda => execLda i.mode (operandByte i) s
      | .brk => execBrkMode i.mode s := by
  cases i <;> rfl

/-- Everything `exec` can do when it answers a next state. -/
theorem exec_next {i : Instr} {s t : State} (h : exec i s = .next t) :
    (i.opcode = .lda ∧ ∃ v, resolveOperandValue i.mode (operandByte i) s = some v ∧
      t = s.loadAccumulator i.mode v) ∨ (i = .brk ∧ t = s.takeSoftwareInterrupt) := by
  rw [exec_eq_handler] at h
  cases hop : i.opcode with
  | lda =>
    rw [hop] at h
    exact .inl ⟨rfl, execLda_next.mp h⟩
  | brk =>
    rw [hop] at h
    simp only [execBrkMode] at h
    split at h
    · rename_i hm
      refine .inr ⟨?_, by simpa [eq_comm] using h⟩
      cases i <;> simp_all [Instr.opcode, Instr.mode]
    · simp [State.raiseInternalConsistency] at h

/-- Everything a turn of the run loop can do when it answers a next state. -/
theorem turn_next {s t : State} (h : turn s = .next t) :
    ∃ i u, s.fetchDecode = .instr i ∧ exec i (s.setRunState .executing) = .next u ∧ t = u.leaveExecuting := by
  unfold turn at h
  cases hd : s.fetchDecode with
  | unimplementedOpcode o => rw [hd] at h; simp [State.raiseUnimplementedOpcode] at h
  | instr i =>
    rw [hd] at h
    simp only at h
    cases he : exec i (s.setRunState .executing) with
    | next u =>
      rw [he] at h
      exact ⟨i, u, rfl, he, by simpa [leaveExecutingOn, eq_comm] using h⟩
    | fault r => rw [he] at h; simp [leaveExecutingOn] at h
    | refused r => rw [he] at h; simp [leaveExecutingOn] at h

/-- A step is a turn of the run loop, or the standing fault of a faulted run. -/
theorem step_cases (s : State) :
    (∃ r, s.runState = .faulted r ∧ step s = .fault r) ∨ ((∀ r, s.runState ≠ .faulted r) ∧ step s = turn s) := by
  unfold step engineStep
  cases h : s.runState with
  | faulted r => exact .inl ⟨r, rfl, rfl⟩
  | fetching => exact .inr ⟨by simp, rfl⟩
  | executing => exact .inr ⟨by simp, rfl⟩
  | halted => exact .inr ⟨by simp, rfl⟩

/-- Everything a step can do when it answers a next state. -/
theorem step_next {s t : State} (h : step s = .next t) :
    ∃ i u, s.fetchDecode = .instr i ∧ exec i (s.setRunState .executing) = .next u ∧ t = u.leaveExecuting := by
  rcases step_cases s with ⟨r, _, hr⟩ | ⟨_, ht⟩
  · rw [hr] at h; cases h
  · exact turn_next (ht ▸ h)

end Sys2Proof.Machine
end

