-- ==== Sys2Proof/Laws/PerInstr.lean ====
section
/-! SUPPORT. A fact about every instruction as syntax, one lemma per constructor: the record's operand slots are the ones
its addressing mode counts (30_encoding.md R39, R40). -/

namespace Sys2Proof.Laws.OperandSlots

/-- The first operand slot is filled exactly where the mode counts one operand byte; the second never is. -/
def Statement (i : Sys2Proof.Instr) : Prop :=
  i.operand1.toList.length = i.mode.operandBytes ∧ i.operand2 = none

theorem brk : Statement .brk := ⟨rfl, rfl⟩
theorem ldaImmediate (b : Sys2Proof.Byte) : Statement (.ldaImmediate b) := ⟨rfl, rfl⟩
theorem ldaZeroPage (b : Sys2Proof.Byte) : Statement (.ldaZeroPage b) := ⟨rfl, rfl⟩
theorem ldaZeroPageX (b : Sys2Proof.Byte) : Statement (.ldaZeroPageX b) := ⟨rfl, rfl⟩
theorem ldaZeroPageY (b : Sys2Proof.Byte) : Statement (.ldaZeroPageY b) := ⟨rfl, rfl⟩
theorem ldaAccumulator : Statement .ldaAccumulator := ⟨rfl, rfl⟩
theorem ldaImplicit : Statement .ldaImplicit := ⟨rfl, rfl⟩
theorem ldaRelative (b : Sys2Proof.Byte) : Statement (.ldaRelative b) := ⟨rfl, rfl⟩
theorem brkAccumulator : Statement .brkAccumulator := ⟨rfl, rfl⟩
theorem brkImmediate (b : Sys2Proof.Byte) : Statement (.brkImmediate b) := ⟨rfl, rfl⟩
theorem brkZeroPage (b : Sys2Proof.Byte) : Statement (.brkZeroPage b) := ⟨rfl, rfl⟩
theorem brkZeroPageX (b : Sys2Proof.Byte) : Statement (.brkZeroPageX b) := ⟨rfl, rfl⟩
theorem brkZeroPageY (b : Sys2Proof.Byte) : Statement (.brkZeroPageY b) := ⟨rfl, rfl⟩
theorem brkRelative (b : Sys2Proof.Byte) : Statement (.brkRelative b) := ⟨rfl, rfl⟩

end Sys2Proof.Laws.OperandSlots
end

