-- ==== Sys2Proof/Laws/Run.lean ====
section
/-! SUPPORT. The host's repeated step, one step at a time. -/

namespace Sys2Proof.Machine

theorem coreRun_succ (M : Host.Core) (n : Nat) (s : M.State) :
    M.run (n + 1) s = match M.step s with
      | .next t => M.run n t
      | .fault r => .fault r
      | .refused r => .refused r := by
  cases h : M.step s <;> simp [Host.Core.run, h]

theorem coreRun_next {s t : State} (n : Nat) (h : step s = .next t) :
    Sys2Proof.core.run (n + 1) s = Sys2Proof.core.run n t := by
  rw [coreRun_succ Sys2Proof.core n s, show Sys2Proof.core.step s = .next t from h]

theorem coreRun_fault {s : State} {r : Fault} (n : Nat) (h : step s = .fault r) :
    Sys2Proof.core.run (n + 1) s = .fault r := by
  rw [coreRun_succ Sys2Proof.core n s, show Sys2Proof.core.step s = .fault r from h]

end Sys2Proof.Machine
end

