-- ==== Sys2Proof/Machine/Assembly.lean ====
section
/-! DEFINITION. The assembler spelling of 30_encoding.md R48: the spec's own notation (decision D16), no part of the
hardware. -/

namespace Sys2Proof.Machine

/-- One hexadecimal digit. -/
def hexDigit (n : Nat) : Char := "0123456789ABCDEF".toList.getD n '0'

/-- `$nn`. -/
def hexByte (b : Byte) : String :=
  String.ofList ['$', hexDigit (b.toNat / 16), hexDigit (b.toNat % 16)]

/-- The spelling of an instruction (30_encoding.md R48); the pairs without a meaning have none. -/
def asmText : Instr → Option String
  | .brk => some "BRK"
  | .ldaImmediate b => some ("LDA #" ++ hexByte b)
  | .ldaZeroPage b => some ("LDA " ++ hexByte b)
  | .ldaZeroPageX b => some ("LDA " ++ hexByte b ++ ",X")
  | .ldaZeroPageY b => some ("LDA " ++ hexByte b ++ ",Y")
  | .ldaAccumulator => some "LDA A"
  | .ldaImplicit => none
  | .ldaRelative _ => none
  | .brkAccumulator => none
  | .brkImmediate _ => none
  | .brkZeroPage _ => none
  | .brkZeroPageX _ => none
  | .brkZeroPageY _ => none
  | .brkRelative _ => none

/-- `.byte $nn`, a literal byte (30_encoding.md R48). -/
def asmByte (b : Byte) : String := ".byte " ++ hexByte b

end Sys2Proof.Machine
end

