-- ==== Sys2Proof/Tests/Slice0.lean ====
section
/-! SUPPORT. The model's own tests. Expected values come from 95_test_vectors.md, from the worked examples of the rules, or
by hand from the encodings of 30_encoding.md; each test's comment names its source. The theorems named `test_witness_…` show,
for each statement of Certificates/Slice0/Obligations.lean that has hypotheses, a state and operands that meet them. -/

namespace Sys2Proof.Tests

open Sys2Proof Sys2Proof.Machine

/-- The next state of an outcome. -/
def nextOf : Host.Outcome State Fault Refusal → Option State
  | .next t => some t
  | .fault _ => none
  | .refused _ => none

/-- The fault of an outcome. -/
def faultOf : Host.Outcome State Fault Refusal → Option Fault
  | .next _ => none
  | .fault r => some r
  | .refused _ => none

/-- The reset state with some cells written. -/
def withCells (cells : List (Word × Byte)) : State :=
  cells.foldl (fun s c => s.writeByte c.1 c.2) State.reset

/-- The reset state with bytes at 0x0200. -/
def withCode (bytes : List Byte) : State := State.reset.storeBytes 0x0200 bytes

/-! ### Well-formedness: an ill-formed term for each check -/

/-- 30_encoding.md R44: an extension may not name 0x00. -/
theorem test_wf_refuses_byte_00 : DecodeExt.wf [⟨0x00, .lda, .zeroPage⟩] = false := by decide
/-- 30_encoding.md R44: an extension may not name 0xA9. -/
theorem test_wf_refuses_byte_A9 : DecodeExt.wf [⟨0xA5, .lda, .zeroPage⟩, ⟨0xA9, .lda, .zeroPage⟩] = false := by decide
/-- 30_encoding.md R44: a finite map has each key once. -/
theorem test_wf_refuses_double_key :
    DecodeExt.wf [⟨0xA5, .lda, .zeroPage⟩, ⟨0xA5, .lda, .zeroPageX⟩] = false := by decide
/-- 30_encoding.md R44: the suggested extension is one. -/
theorem test_wf_accepts_lda_zp : DecodeExt.wf decodeExtLdaZp = true := by decide
/-- 41_load.md: ZeroPageY has no opcode byte, neither in the base table nor in the suggested extension. -/
theorem test_wf_refuses_zeroPageY :
    Instr.wellFormedIn (decodeTable decodeExtLdaZp) (.ldaZeroPageY 0x10) = false := by decide
/-- 95_test_vectors.md E5: (`LDA`, ZeroPage) is not in the base table. -/
theorem test_wf_refuses_zeroPage_in_base : Instr.wellFormedIn (decodeTable []) (.ldaZeroPage 0x10) = false := by decide

/-! ### Decoding, each word written out from the spec's encoding -/

/-- 30_encoding.md R42, 95_test_vectors.md E1: `00000000 pppppppp`. -/
theorem test_decode_brk : decode [] 0b00000000 0x55 0x66 = .instr .brk := by decide
/-- 30_encoding.md R41, 95_test_vectors.md E2: `10101001 bbbbbbbb`. -/
theorem test_decode_ldaImmediate : decode [] 0b10101001 0b01010101 0x66 = .instr (.ldaImmediate 0x55) := by decide
/-- opcode_table.json, 95_test_vectors.md E6: `10100101 bbbbbbbb`. -/
theorem test_decode_ldaZeroPage :
    decode decodeExtLdaZp 0b10100101 0b00010000 0x00 = .instr (.ldaZeroPage 0x10) := by decide
/-- opcode_table.json, 95_test_vectors.md E7: `10110101 bbbbbbbb`. -/
theorem test_decode_ldaZeroPageX :
    decode decodeExtLdaZp 0b10110101 0b00010000 0x00 = .instr (.ldaZeroPageX 0x10) := by decide
/-- 95_test_vectors.md E4, E5: the neighbours of the legal bytes and the ends of the range, and 0xA5 in the base table. -/
theorem test_decode_absent :
    decode [] 0x01 0x00 0x00 = .unimplementedOpcode 0x01 ∧ decode [] 0xA8 0x00 0x00 = .unimplementedOpcode 0xA8 ∧
      decode [] 0xAA 0x00 0x00 = .unimplementedOpcode 0xAA ∧ decode [] 0xFF 0x00 0x00 = .unimplementedOpcode 0xFF ∧
      decode [] 0xA5 0x10 0x00 = .unimplementedOpcode 0xA5 := by decide
/-- 30_encoding.md R44: the pairs with no suggested byte, each through an extension entry (bytes chosen here). -/
theorem test_decode_pairs_without_byte :
    decode [⟨0x01, .lda, .zeroPageY⟩] 0x01 0x80 0x00 = .instr (.ldaZeroPageY 0x80) ∧
      decode [⟨0x01, .lda, .accumulator⟩] 0x01 0x80 0x00 = .instr .ldaAccumulator ∧
      decode [⟨0x01, .lda, .implicit⟩] 0x01 0x80 0x00 = .instr .ldaImplicit ∧
      decode [⟨0x01, .lda, .relative⟩] 0x01 0x05 0x00 = .instr (.ldaRelative 0x05) ∧
      decode [⟨0x01, .brk, .accumulator⟩] 0x01 0x05 0x00 = .instr .brkAccumulator ∧
      decode [⟨0x01, .brk, .immediate⟩] 0x01 0x05 0x00 = .instr (.brkImmediate 0x05) ∧
      decode [⟨0x01, .brk, .zeroPage⟩] 0x01 0x05 0x00 = .instr (.brkZeroPage 0x05) ∧
      decode [⟨0x01, .brk, .zeroPageX⟩] 0x01 0x05 0x00 = .instr (.brkZeroPageX 0x05) ∧
      decode [⟨0x01, .brk, .zeroPageY⟩] 0x01 0x05 0x00 = .instr (.brkZeroPageY 0x05) ∧
      decode [⟨0x01, .brk, .relative⟩] 0x01 0x05 0x00 = .instr (.brkRelative 0x05) := by decide
/-- 30_encoding.md R48: the bytes of the assembler table. -/
theorem test_encode_words :
    encode (decodeTable decodeExtLdaZp) (.ldaImmediate 0x42) = some [0xA9, 0x42] ∧
      encode (decodeTable decodeExtLdaZp) (.ldaZeroPage 0x10) = some [0xA5, 0x10] ∧
      encode (decodeTable decodeExtLdaZp) (.ldaZeroPageX 0x10) = some [0xB5, 0x10] ∧
      encode (decodeTable decodeExtLdaZp) .brk = some [0x00, 0x00] ∧
      encode (decodeTable decodeExtLdaZp) .ldaAccumulator = none := by decide
/-- opcode_table.json: the four rows' words (`match`), operand bits zero, and an operand in bits 7..0. -/
theorem test_table_words :
    decodeTableWord 16 0x0000 = some .brk ∧ decodeTableWord 16 0xA900 = some (.ldaImmediate 0x00) ∧
      decodeTableWord 16 0xA500 = some (.ldaZeroPage 0x00) ∧ decodeTableWord 16 0xB500 = some (.ldaZeroPageX 0x00) ∧
      decodeTableWord 16 0xA942 = some (.ldaImmediate 0x42) ∧ decodeTableWord 8 0xA9 = some (.ldaImmediate 0x00) ∧
      decodeTableWord 16 0xEA00 = none := by decide
/-- Each row's word placed at reset is what the next step runs: `pc` moves on (or to the vector target 0x0000). -/
theorem test_table_words_step :
    (nextOf (step (State.reset.withFetchWord 16 0x0000))).map (·.pc) = some 0x0000 ∧
      (nextOf (step (State.reset.withFetchWord 16 0xA980))).map (·.a) = some 0x80 ∧
      (nextOf (step (State.reset.withFetchWord 16 0xA500))).map (·.pc) = some 0x0202 ∧
      (nextOf (step (State.reset.withFetchWord 16 0xB500))).map (·.pc) = some 0x0202 := by decide

/-! ### One step or one instruction each -/

/-- 95_test_vectors.md S6, B1, B8: `BRK` from reset, reserved byte 0xEA: pushed 0x02, 0x02, 0x34. -/
theorem test_brk_from_reset :
    (nextOf (step (withCode [0x00, 0xEA]))).map (fun t =>
      ((t.pc, t.sp, t.runState), t.readByte 0x01FF, t.readByte 0x01FE, t.readByte 0x01FD, asByte t.p)) =
      some ((0x0000, 0xFC, .halted), 0x02, 0x02, 0x34, 0x34) := by decide
/-- 95_test_vectors.md B3: the stack wraps inside its page, the vector is 0x0300. -/
theorem test_brk_wraps :
    (nextOf (exec .brk { withCells [(0xFFFF, 0x03)] with pc := 0x1234, sp := 0x01, p := fromByte 0x81 })).map (fun t =>
      (t.pc, t.sp, t.readByte 0x0101, t.readByte 0x0100, t.readByte 0x01FF)) =
      some (0x0300, 0xFE, 0x12, 0x36, 0xB5) := by decide
/-- 95_test_vectors.md L7: operand byte past the top of memory. -/
theorem test_ldaImmediate_at_top :
    (nextOf (step { withCells [(0xFFFF, 0xA9), (0x0000, 0x80)] with pc := 0xFFFF })).map (fun t =>
      (t.a, asByte t.p, t.pc)) = some (0x80, 0xA4, 0x0001) := by decide
/-- 95_test_vectors.md L6: `Z` and `N` cleared, the other flags kept. -/
theorem test_ldaImmediate_flags :
    (nextOf (exec (.ldaImmediate 0x42) (State.reset.setP (fromByte 0xEF)))).map (fun t => (t.a, t.p)) =
      some (0x42, fromByte 0x6D) := by decide
/-- 95_test_vectors.md Z2: the stack page is not read. -/
theorem test_ldaZeroPage_stays_in_page :
    (nextOf (exec (.ldaZeroPage 0xFF) (withCells [(0x01FF, 0x77)]))).map (fun t => (t.a, asByte t.p, t.pc)) =
      some (0x00, 0x26, 0x0202) := by decide
/-- 95_test_vectors.md Z3: the index sum wraps. -/
theorem test_ldaZeroPageX_wraps :
    (nextOf (exec (.ldaZeroPageX 0xF0) { withCells [(0x0010, 0x11), (0x0110, 0x22)] with x := 0x20 })).map (·.a) =
      some 0x11 := by decide
/-- 95_test_vectors.md Z8: X is used, Y is not. -/
theorem test_ldaZeroPageX_uses_x :
    (nextOf (exec (.ldaZeroPageX 0x10)
      { withCells [(0x0015, 0x01), (0x0019, 0x02)] with x := 0x05, y := 0x09 })).map (·.a) = some 0x01 := by decide
/-- 95_test_vectors.md Z6: the sum wraps to cell 0x0000. -/
theorem test_ldaZeroPageY_wraps :
    (nextOf (exec (.ldaZeroPageY 0x80) { withCells [(0x0000, 0x7F)] with y := 0x80 })).map (fun t =>
      (t.a, asByte t.p)) = some (0x7F, 0x24) := by decide
/-- 95_test_vectors.md A2: `Z` cleared, `N` set, one byte long. -/
theorem test_ldaAccumulator :
    (nextOf (exec .ldaAccumulator { State.reset with a := 0x90, p := fromByte 0x06 })).map (fun t =>
      (t.a, asByte t.p, t.pc)) = some (0x90, 0xA4, 0x0201) := by decide
/-- 95_test_vectors.md X1, X2: no value, no state change, the fault with its payload. -/
theorem test_lda_without_value :
    faultOf (exec .ldaImplicit State.reset) = some (.internalConsistencyFault .lda .implicit 0x0200) ∧
      faultOf (exec (.ldaRelative 0x05) State.reset) = some (.internalConsistencyFault .lda .relative 0x0200) := by
  decide
/-- 95_test_vectors.md B9. -/
theorem test_brk_immediate_faults :
    faultOf (exec (.brkImmediate 0x00) State.reset) = some (.internalConsistencyFault .brk .immediate 0x0200) := by
  decide
/-- 95_test_vectors.md RUN1, RUN2: an absent byte faults with its address; the run is Faulted, never Halted. -/
theorem test_absent_byte_faults :
    faultOf (step (withCode [0xEA])) = some (.unimplementedOpcode 0xEA 0x0200) ∧
      (run 1 (withCode [0xEA])).runState = .faulted (.unimplementedOpcode 0xEA 0x0200) := by decide
/-- 95_test_vectors.md P5: a run halts where `LDA` lands on the vector target; before the first fetch nothing is tested
(RUN3's point). -/
theorem test_sentinel_collision :
    (nextOf (step { withCells [(0xFFFE, 0x02), (0xFFFF, 0x02), (0x0200, 0xA9)] with pc := 0x0200 })).map (fun t =>
      (t.pc, t.runState, t.p.b)) = some (0x0202, .halted, false) := by decide
/-- 95_test_vectors.md M4, M7, M9: vector byte order, push at the bottom of the page, pop at its top. -/
theorem test_stack_and_vector :
    (withCells [(0xFFFE, 0x34), (0xFFFF, 0x12)]).vectorTarget = 0x1234 ∧
      ((State.reset.setSp 0x00).push 0x22).readByte 0x0100 = 0x22 ∧ ((State.reset.setSp 0x00).push 0x22).sp = 0xFF ∧
      (withCells [(0x0100, 0x22)]).pop.1 = 0x22 ∧ (withCells [(0x0100, 0x22)]).pop.2.sp = 0x00 := by decide
/-- 95_test_vectors.md S2: the loader. -/
theorem test_loader :
    boot Config.default [0xA9, 0x42, 0x00] =
      .loaded { State.reset with mem := [(0x0200, 0xA9), (0x0201, 0x42)] } := by decide
/-- 95_test_vectors.md S1: three rows of the status-byte table. -/
theorem test_status_bytes :
    asByte (fromByte 0x00) = 0x20 ∧ asByte (fromByte 0xDF) = 0xFF ∧ asByte (fromByte 0x81) = 0xA1 := by decide
/-- 30_encoding.md R48: three lines of the assembler table. -/
theorem test_asm :
    asmText (.ldaImmediate 0x42) = some "LDA #$42" ∧ asmText (.ldaZeroPageX 0x1F) = some "LDA $1F,X" ∧
      asmText .ldaAccumulator = some "LDA A" ∧ asmByte 0xEA = ".byte $EA" := by decide

/-! ### Witnesses for the statements that have hypotheses -/

/-- A state of a faulted run. -/
def faultedState : State := State.reset.setRunState (.faulted (.unimplementedOpcode 0xEA 0x0200))

/-- Every cell from `k` on holds 0xA9, for `n` cells. -/
def filled (k : Nat) : Nat → Memory
  | 0 => []
  | n + 1 => (k, 0xA9) :: filled (k + 1) n

theorem filled_read (n k : Nat) (addr : Word) (h : k ≤ addr.toNat) (h' : addr.toNat < k + n) :
    Memory.read (filled k n) addr = 0xA9 := by
  induction n generalizing k with
  | zero => omega
  | succ n ih =>
    rw [filled, Memory.read]
    split
    · rfl
    · exact ih (k + 1) (by omega) (by omega)

theorem reset_not_faulted (r : Fault) : State.reset.runState ≠ .faulted r := by
  intro h
  cases h

theorem withCode_EA_not_faulted (r : Fault) : (withCode [0xEA]).runState ≠ .faulted r := by
  intro h
  cases h

theorem test_witness_ResetMeetsInvariant : DecodeExt.wf decodeExtLdaZp = true := by decide

theorem test_witness_WriteChangesOneCell : (0x1235 : Word) ≠ 0x1234 := by decide

theorem test_witness_CanonicalMemoriesThatReadAlikeAreEqual :
    Memory.wf [(0x0000, 0x02), (0xFFFF, 0x01)] = true ∧
      ∀ addr : Word, Memory.read [(0x0000, 0x02), (0xFFFF, 0x01)] addr = Memory.read [(0x0000, 0x02), (0xFFFF, 0x01)] addr :=
  ⟨by decide, fun _ => rfl⟩

/-- 257 pushes (95_test_vectors.md M11): the first byte still in its cell is number 1, the last number 256. -/
theorem test_witness_StackIsCircularAndUnchecked :
    (1 < (List.replicate 257 (0x22 : Byte)).length ∧ (List.replicate 257 (0x22 : Byte)).length ≤ 1 + 256) ∧
      (256 < (List.replicate 257 (0x22 : Byte)).length ∧ (List.replicate 257 (0x22 : Byte)).length ≤ 256 + 256) ∧
      regionOf 0x00FF ≠ .stackPage ∧ regionOf 0x0200 ≠ .stackPage := by
  simp only [List.length_replicate]
  decide

/-- The longest program that fits, its last index, and the cells beside it. -/
theorem test_witness_LoaderPlacesProgramAndNothingElse :
    (List.replicate 65022 (0xA9 : Byte)).length ≤ 65022 ∧ 65021 < (List.replicate 65022 (0xA9 : Byte)).length ∧
      (0x01FF : Word).toNat < 0x0200 ∧ 0x0200 + (List.replicate 65022 (0xA9 : Byte)).length ≤ (0xFFFE : Word).toNat := by
  simp only [List.length_replicate]
  decide

theorem test_witness_LoaderRejectsProgramTooLarge : 65022 < (List.replicate 65023 (0xA9 : Byte)).length := by
  simp only [List.length_replicate]
  decide

theorem test_witness_AbsentOpcodeByteIsUnimplemented :
    (0x01 : Byte) ≠ 0x00 ∧ (0xA8 : Byte) ≠ 0xA9 ∧ DecodeExt.free 0x01 decodeExtLdaZp = true ∧
      (withCode [0xEA]).readByte (withCode [0xEA]).pc ≠ 0x00 ∧ (withCode [0xEA]).readByte (withCode [0xEA]).pc ≠ 0xA9 ∧
      DecodeExt.free ((withCode [0xEA]).readByte (withCode [0xEA]).pc) (withCode [0xEA]).decodeExt = true := by decide

theorem test_witness_ExtensionEntryDecodesToItsPair :
    DecodeExt.wf decodeExtLdaZp = true ∧ (⟨0xB5, .lda, .zeroPageX⟩ : DecodeEntry) ∈ decodeExtLdaZp := by decide

theorem test_witness_DecodedInstructionIsWellFormed :
    decode [⟨0x01, .brk, .relative⟩] 0x01 0x05 0x00 = .instr (.brkRelative 0x05) ∧
      decode [] 0x00 0x05 0x00 = .instr .brk := by decide

theorem test_witness_DecodeOfEncodeIsTheInstruction :
    DecodeExt.wf [⟨0x01, .lda, .accumulator⟩] = true ∧
      Instr.wellFormedIn (decodeTable [⟨0x01, .lda, .accumulator⟩]) .ldaAccumulator = true ∧
      Instr.wellFormedIn (decodeTable decodeExtLdaZp) (.ldaZeroPageX 0xFF) = true ∧
      Instr.wellFormedIn (decodeTable []) .brk = true := by decide

theorem test_witness_LdaZeroPageResult :
    (0x99 : Byte) = (withCells [(0x0010, 0x99)]).readByte ((0x10 : Byte).zeroExtend 16) := by decide

theorem test_witness_LdaZeroPageXResult :
    (0x80 : Byte) = { withCells [(0x0000, 0x80)] with x := 0x01 }.readByte (((0xFF : Byte) + 0x01).zeroExtend 16) := by
  decide

theorem test_witness_LdaZeroPageYResult :
    (0x7F : Byte) = { withCells [(0x0000, 0x7F)] with y := 0x80 }.readByte (((0x80 : Byte) + 0x80).zeroExtend 16) := by
  decide

theorem test_witness_LdaGeneralRule :
    (Instr.ldaImmediate 0x80).opcode = .lda ∧
      resolveOperandValue (Instr.ldaImmediate 0x80).mode ((Instr.ldaImmediate 0x80).operand1.getD 0x00) State.reset =
        some 0x80 ∧
      Instr.ldaImplicit.opcode = .lda ∧ Instr.ldaImplicit.mode = .implicit ∧ (Instr.ldaRelative 0x05).mode = .relative ∧
      (Instr.ldaImmediate 0x80).mode ≠ .implicit ∧ (Instr.ldaImmediate 0x80).mode ≠ .relative := by decide

/-- Also the witness of LdaFrame. -/
theorem test_witness_LdaNegativeFlagIsSignBit :
    (Instr.ldaImmediate 0x80).opcode = .lda ∧ ∃ t : State, exec (.ldaImmediate 0x80) State.reset = .next t :=
  ⟨rfl, _, rfl⟩

theorem test_witness_BrkPushesFrameAndVectors :
    (0x0200 : Word) ≠ stackAddr State.reset.sp ∧ (0x0200 : Word) ≠ stackAddr (State.reset.sp - 1) ∧
      (0x01FC : Word) ≠ stackAddr (State.reset.sp - 2) := by decide

theorem test_witness_BrkPushedStatusByte : ∃ t : State, exec .brk State.reset = .next t := ⟨_, rfl⟩

/-- Also the witness of RunOverBrkHalts, of BaseMachineFaultsExactlyOnAbsentBytes at 0x00, of StepIsCycleThenHaltTest and
of StepRunsDecodedInstruction. -/
theorem test_witness_StepOverBrkHalts :
    (∀ r : Fault, State.reset.runState ≠ .faulted r) ∧ State.reset.readByte State.reset.pc = 0x00 ∧
      State.reset.decodeExt = [] ∧ State.reset.fetchDecode = .instr .brk :=
  ⟨reset_not_faulted, by decide, by decide, by decide⟩

theorem test_witness_DispatchFaultsExactlyOnPairsWithoutMeaning :
    ((Instr.ldaRelative 0x05).opcode = .lda ∧ (Instr.ldaRelative 0x05).mode = .relative) ∧
      ((Instr.brkZeroPageY 0x05).opcode = .brk ∧ (Instr.brkZeroPageY 0x05).mode ≠ .implicit) ∧
      ¬ (((Instr.ldaZeroPageY 0x05).opcode = .lda ∧
            ((Instr.ldaZeroPageY 0x05).mode = .implicit ∨ (Instr.ldaZeroPageY 0x05).mode = .relative)) ∨
          ((Instr.ldaZeroPageY 0x05).opcode = .brk ∧ (Instr.ldaZeroPageY 0x05).mode ≠ .implicit)) := by decide

/-- Also the witness of StepFaultsOnUnimplementedOpcode. -/
theorem test_witness_BaseMachineFaultsExactlyOnAbsentBytes :
    (∀ r : Fault, (withCode [0xEA]).runState ≠ .faulted r) ∧ (withCode [0xEA]).decodeExt = [] ∧
      (withCode [0xEA]).readByte (withCode [0xEA]).pc ≠ 0x00 ∧ (withCode [0xEA]).readByte (withCode [0xEA]).pc ≠ 0xA9 ∧
      (withCode [0xEA]).fetchDecode = .unimplementedOpcode 0xEA ∧
      (withCode [0xA9]).readByte (withCode [0xA9]).pc = 0xA9 :=
  ⟨withCode_EA_not_faulted, by decide, by decide, by decide, by decide, by decide⟩

theorem test_witness_FetchReadsThreeBytes : (State.reset.setPc 0xFFFF).pc = 0xFFFF := rfl

theorem test_witness_FaultedRunTakesNoStep :
    faultedState.runState = .faulted (.unimplementedOpcode 0xEA 0x0200) := rfl

theorem test_witness_RunStateDoesNotInfluenceExecution :
    ∃ t : State, exec (.ldaImmediate 0x01) State.reset = .next t := ⟨_, rfl⟩

/-- Also the witness of HaltTestAfterEveryStep, StepFrameOfTheWholeMachine and FlagsSelectNothing: a step that stores. -/
theorem test_witness_StepKeepsInvariant : State.reset.Inv ∧ ∃ t : State, step State.reset = .next t :=
  ⟨by decide, _, rfl⟩

/-- The clauses of StepFrameOfTheWholeMachine: both edges of the stack page, a set `I`, and a step that is no `BRK`. -/
theorem test_witness_StepFrameOfTheWholeMachine :
    regionOf 0x00FF ≠ .stackPage ∧ regionOf 0x0200 ≠ .stackPage ∧ State.reset.p.i = true ∧
      (State.reset.setP (fromByte 0x10)).p.b = true ∧ (withCode [0xA9]).fetchDecode ≠ .instr .brk ∧
      (nextOf (step (withCode [0xA9]))).isSome = true := by decide

theorem test_witness_FlagsSelectNothing : (0x01FF : Word) ≠ stackAddr (State.reset.sp - 2) := by decide

/-- A Halted run with a state strictly between (95_test_vectors.md P1): two steps, Fetching after the first. -/
theorem test_witness_RunIsStepRepeated_between :
    (run 2 (withCode [0xA9, 0x42, 0x00])).runState = .halted ∧
      (nextOf (step ((withCode [0xA9, 0x42, 0x00]).setRunState .fetching))).map (·.runState) = some .fetching := by
  decide

/-- Also the witness of EndOfRunIsTerminal. -/
theorem test_witness_RunIsStepRepeated :
    (run 1 State.reset).runState = .halted ∧ (run 1 State.reset).runState.ended = true ∧
      (run 1 (withCode [0xEA])).runState = .faulted (.unimplementedOpcode 0xEA 0x0200) := by decide

theorem test_witness_EveryLoadedProgramRunEnds :
    Config.default.decodeExt = [] ∧ ∃ s : State, boot Config.default [0xA9, 0x42, 0x00] = .loaded s :=
  ⟨rfl, _, rfl⟩

/-- 95_test_vectors.md RUN4: every cell 0xA9. -/
theorem test_witness_RunOverAllA9NeverEnds :
    (∀ addr : Word, (State.reset.setMem (filled 0 65536)).readByte addr = 0xA9) ∧
      (State.reset.setMem (filled 0 65536)).pc.toNat % 2 = 0 :=
  ⟨fun addr => filled_read 65536 0 addr (Nat.zero_le _) (by have := addr.isLt; omega), by
    rw [State.setMem_pc]
    decide⟩

end Sys2Proof.Tests
end

section
/-! PROOFS. The status register's byte, the flag setters, and the stack under any number of pushes (10_state.md, 20_memory.md
section 4). -/

namespace Sys2Proof.Machine

/-! ### The bits of the status byte -/

/-- Bit `k` of a masked flag: the flag where the mask has a one, else zero. -/
theorem flagMask_getLsbD (f : Bool) (mask : Byte) (k : Nat) :
    (flagMask f mask).getLsbD k = (f && mask.getLsbD k) := by
  cases f <;> simp [flagMask]

/-- Bit `k` of the status byte: each flag through its mask, and bit 5 (10_state.md R5). -/
theorem asByte_getLsbD (p : Status) (k : Nat) :
    (asByte p).getLsbD k =
      (p.n && (0x80 : Byte).getLsbD k || p.v && (0x40 : Byte).getLsbD k || (0x20 : Byte).getLsbD k ||
        p.b && (0x10 : Byte).getLsbD k || p.d && (0x08 : Byte).getLsbD k || p.i && (0x04 : Byte).getLsbD k ||
        p.z && (0x02 : Byte).getLsbD k || p.c && (0x01 : Byte).getLsbD k) := by
  simp only [asByte, BitVec.getLsbD_or, flagMask_getLsbD]

theorem asByte_getLsbD_zero (p : Status) : (asByte p).getLsbD 0 = p.c := by rw [asByte_getLsbD]; simp
theorem asByte_getLsbD_one (p : Status) : (asByte p).getLsbD 1 = p.z := by rw [asByte_getLsbD]; simp
theorem asByte_getLsbD_two (p : Status) : (asByte p).getLsbD 2 = p.i := by rw [asByte_getLsbD]; simp
theorem asByte_getLsbD_three (p : Status) : (asByte p).getLsbD 3 = p.d := by rw [asByte_getLsbD]; simp
theorem asByte_getLsbD_four (p : Status) : (asByte p).getLsbD 4 = p.b := by rw [asByte_getLsbD]; simp
theorem asByte_getLsbD_five (p : Status) : (asByte p).getLsbD 5 = true := by rw [asByte_getLsbD]; simp
theorem asByte_getLsbD_six (p : Status) : (asByte p).getLsbD 6 = p.v := by rw [asByte_getLsbD]; simp
theorem asByte_getLsbD_seven (p : Status) : (asByte p).getLsbD 7 = p.n := by rw [asByte_getLsbD]; simp

/-- Bit 5 is no flag (10_state.md R6). -/
theorem fromByte_or_bit5 (b : Byte) : fromByte (b ||| 0x20) = fromByte b := by
  simp [fromByte]

/-- Packing an unpacked byte, bit by bit: the flags give back their bits, and bit 5 is one on both sides. -/
theorem asByte_fromByte (b : Byte) : asByte (fromByte b) = b ||| 0x20 := by
  apply BitVec.eq_of_getLsbD_eq
  intro k hk
  rw [BitVec.getLsbD_or]
  match k, hk with
  | 0, _ => exact (asByte_getLsbD_zero _).trans (Bool.or_false _).symm
  | 1, _ => exact (asByte_getLsbD_one _).trans (Bool.or_false _).symm
  | 2, _ => exact (asByte_getLsbD_two _).trans (Bool.or_false _).symm
  | 3, _ => exact (asByte_getLsbD_three _).trans (Bool.or_false _).symm
  | 4, _ => exact (asByte_getLsbD_four _).trans (Bool.or_false _).symm
  | 5, _ => exact (asByte_getLsbD_five _).trans (Bool.or_true _).symm
  | 6, _ => exact (asByte_getLsbD_six _).trans (Bool.or_false _).symm
  | 7, _ => exact (asByte_getLsbD_seven _).trans (Bool.or_false _).symm

/-! ### Any number of pushes -/

/-- The pushes of a list of bytes, the first one first. -/
def State.pushAll (s : State) (vs : List Byte) : State := vs.foldl (fun u v => u.push v) s

@[simp] theorem State.pushAll_nil (s : State) : s.pushAll [] = s := rfl

@[simp] theorem State.pushAll_cons (s : State) (v : Byte) (vs : List Byte) :
    s.pushAll (v :: vs) = (s.push v).pushAll vs := rfl

/-- Going down by one and then by `n` is going down by `n + 1`, modulo 256. -/
theorem sub_one_sub_ofNat (sp : Byte) (n : Nat) : sp - 1 - BitVec.ofNat 8 n = sp - BitVec.ofNat 8 (n + 1) := by
  rw [BitVec.sub_sub, BitVec.add_comm, BitVec.ofNat_add]
  rfl

/-- `SP` comes back to its value after 256 steps and no sooner. -/
theorem sub_ofNat_ne_self (sp : Byte) {n : Nat} (hpos : 0 < n) (hlt : n < 256) : sp - BitVec.ofNat 8 n ≠ sp := by
  intro h
  bv_omega

theorem State.pushAll_sp (s : State) (vs : List Byte) : (s.pushAll vs).sp = s.sp - BitVec.ofNat 8 vs.length := by
  induction vs generalizing s with
  | nil => simp
  | cons v vs ih => rw [pushAll_cons, ih, push_sp, sub_one_sub_ofNat, List.length_cons]

/-- A cell that no push of the list designates keeps its byte. -/
theorem State.pushAll_readByte_of_ne (s : State) (vs : List Byte) (addr : Word)
    (h : ∀ k < vs.length, addr ≠ stackAddr (s.sp - BitVec.ofNat 8 k)) :
    (s.pushAll vs).readByte addr = s.readByte addr := by
  induction vs generalizing s with
  | nil => rfl
  | cons v vs ih =>
    have hfirst : addr ≠ stackAddr s.sp := by simpa using h 0 (Nat.succ_pos _)
    have hrest : ∀ k < vs.length, addr ≠ stackAddr ((s.push v).sp - BitVec.ofNat 8 k) := fun k hk => by
      rw [push_sp, sub_one_sub_ofNat]
      exact h (k + 1) (Nat.succ_lt_succ hk)
    rw [pushAll_cons, ih _ hrest, push_readByte, if_neg hfirst]

/-- Each of the last 256 bytes stands in the cell `SP` designated at its push: fewer than 256 pushes follow it, so none of
them comes round to its cell. -/
theorem State.pushAll_readByte (s : State) (vs : List Byte) (k : Nat) (hk : k < vs.length)
    (hlast : vs.length ≤ k + 256) :
    (s.pushAll vs).readByte (stackAddr (s.sp - BitVec.ofNat 8 k)) = vs[k] := by
  induction vs generalizing s k with
  | nil => cases hk
  | cons v vs ih =>
    rw [List.length_cons] at hk hlast
    cases k with
    | zero =>
      have hlater : ∀ j < vs.length, stackAddr s.sp ≠ stackAddr ((s.push v).sp - BitVec.ofNat 8 j) := fun j hj => by
        rw [push_sp, sub_one_sub_ofNat, ne_eq, stackAddr_inj]
        exact (sub_ofNat_ne_self s.sp (Nat.succ_pos j) (by omega)).symm
      have hcell : s.sp - BitVec.ofNat 8 0 = s.sp := by simp
      rw [hcell, pushAll_cons, pushAll_readByte_of_ne _ _ _ hlater, push_readByte, if_pos rfl, List.getElem_cons_zero]
    | succ k =>
      rw [← sub_one_sub_ofNat, ← push_sp s v, pushAll_cons, List.getElem_cons_succ]
      exact ih (s.push v) k (by omega) (by omega)

/-- The cells outside the stack page keep their bytes (20_memory.md R28). -/
theorem State.pushAll_readByte_of_not_stackPage (s : State) (vs : List Byte) (addr : Word)
    (h : regionOf addr ≠ .stackPage) : (s.pushAll vs).readByte addr = s.readByte addr :=
  s.pushAll_readByte_of_ne vs addr fun _ _ e => h (e ▸ regionOf_stackAddr _)

/-- Pushes write `SP` and memory, and no other field. -/
theorem State.pushAll_frame (s : State) (vs : List Byte) :
    s.pushAll vs = { s with sp := (s.pushAll vs).sp, mem := (s.pushAll vs).mem } := by
  induction vs generalizing s with
  | nil => rfl
  | cons v vs ih => exact ih (s.push v)

/-! ### The obligations -/

/-- Settles O15, by induction on the list of pushed bytes. -/
theorem stackIsCircularAndUnchecked : Obligations.StackIsCircularAndUnchecked := by
  unfold Obligations.StackIsCircularAndUnchecked
  rintro s vs t rfl
  exact ⟨s.pushAll_sp vs, s.pushAll_readByte vs, s.pushAll_readByte_of_not_stackPage vs, s.pushAll_frame vs⟩

/-- Settles O4, from the bits of the status byte. -/
theorem statusByteLayout : Obligations.StatusByteLayout := by
  unfold Obligations.StatusByteLayout
  refine ⟨fun p => ?_, by decide, by decide⟩
  exact ⟨asByte_getLsbD_zero p, asByte_getLsbD_one p, asByte_getLsbD_two p, asByte_getLsbD_three p,
    asByte_getLsbD_four p, asByte_getLsbD_five p, asByte_getLsbD_six p, asByte_getLsbD_seven p⟩

/-- Settles O1: the constructed status is the one R5 gives as its example 0x24, whatever the open parameters are. -/
theorem resetStatusHasOnlyInterruptDisable : Obligations.ResetStatusHasOnlyInterruptDisable := by
  unfold Obligations.ResetStatusHasOnlyInterruptDisable
  obtain ⟨-, -, honlyI⟩ := statusByteLayout
  exact fun cfg => ⟨rfl, honlyI⟩

/-- Settles O5: the bits by definition of `fromByte`, bit 5 by `fromByte_or_bit5`. -/
theorem fromByteUnpacksFlags : Obligations.FromByteUnpacksFlags := by
  unfold Obligations.FromByteUnpacksFlags
  exact ⟨fun b => ⟨rfl, fromByte_or_bit5 b⟩, by decide⟩

/-- Settles O6, bit by bit. -/
theorem statusByteRoundTrip : Obligations.StatusByteRoundTrip := by
  unfold Obligations.StatusByteRoundTrip
  exact asByte_fromByte

/-- Settles O8: each setter is the record update of its one flag by definition. -/
theorem flagSettersTouchOneFlag : Obligations.FlagSettersTouchOneFlag := by
  unfold Obligations.FlagSettersTouchOneFlag
  exact fun p f => ⟨rfl, rfl, rfl, rfl, rfl, rfl, rfl, fun s q => rfl⟩

end Sys2Proof.Machine
end

section
/-! PROOFS. The statements about the memory bus (20_memory.md). -/

namespace Sys2Proof.Machine

/-- Settles O9: what a read answers after a write is the law `State.readByte_writeByte`, at the written cell and at any
other one; a write is an update of the memory field alone. -/
theorem writeChangesOneCell : Obligations.WriteChangesOneCell := by
  unfold Obligations.WriteChangesOneCell
  intro s addr v
  refine ⟨?same, fun other hne => ?others, rfl⟩
  case same => rw [State.readByte_writeByte, if_pos rfl]
  case others => rw [State.readByte_writeByte, if_neg hne]

end Sys2Proof.Machine
end

section
/-! PROOFS. Which opcode bytes the decode table holds, and the run that meets one it does not hold (30_encoding.md R41,
R43). -/

namespace Sys2Proof

/-- A table has no entry for an opcode byte exactly where no key of it is that byte. -/
theorem lookupOpcode_eq_none {ext : List DecodeEntry} {o : Byte} :
    lookupOpcode ext o = none ↔ DecodeExt.free o ext = true := by
  induction ext with
  | nil => simp [lookupOpcode, DecodeExt.free]
  | cons e t ih => by_cases h : e.byte = o <;> simp [lookupOpcode, DecodeExt.free, h, ih]

/-- The whole table has no entry for an opcode byte exactly where neither the base nor the extension names it. -/
theorem lookupOpcode_decodeTable_eq_none {ext : List DecodeEntry} {o : Byte} :
    lookupOpcode (decodeTable ext) o = none ↔ o ≠ 0x00 ∧ o ≠ 0xA9 ∧ DecodeExt.free o ext = true := by
  rw [lookupOpcode_decodeTable]
  by_cases h0 : (0x00 : Byte) = o
  · simp [← h0]
  by_cases hA9 : (0xA9 : Byte) = o
  · simp [← hA9]
  rw [if_neg h0, if_neg hA9, lookupOpcode_eq_none, and_iff_right (Ne.symm h0), and_iff_right (Ne.symm hA9)]

/-- `decode` rejects exactly the bytes the table has no entry for, whatever the next bytes (30_encoding.md R43). -/
theorem decode_eq_unimplementedOpcode {ext : List DecodeEntry} {o b1 b2 : Byte} :
    decode ext o b1 b2 = .unimplementedOpcode o ↔ o ≠ 0x00 ∧ o ≠ 0xA9 ∧ DecodeExt.free o ext = true := by
  rw [← lookupOpcode_decodeTable_eq_none]
  rcases decode_cases ext o b1 b2 with ⟨op, m, hlookup, hdecode⟩ | ⟨hlookup, hdecode⟩
  · simp [hlookup, hdecode]
  · simp [hlookup, hdecode]

/-- Byte 0xA9 under every extension (30_encoding.md R41). -/
theorem decode_A9 (ext : List DecodeEntry) (a b2 : Byte) : decode ext 0xA9 a b2 = .instr (.ldaImmediate a) := by
  have hlookup : lookupOpcode (decodeTable ext) 0xA9 = some (.lda, .immediate) := lookupOpcode_decodeTable ext 0xA9
  rw [decode, hlookup]
  rfl

end Sys2Proof

namespace Sys2Proof.Machine

/-- A turn whose bytes the decode step rejects faults with the byte and `pc` (60_exceptions.md R80). -/
theorem turn_of_unimplementedOpcode {s : State} {o : Byte} (h : s.fetchDecode = .unimplementedOpcode o) :
    turn s = .fault (.unimplementedOpcode o s.pc) := by
  rw [turn, h]
  rfl

/-- A run whose first turn faults ends Faulted with that reason, and nothing else of the state changes
(40_execution_cycle.md R62). -/
theorem run_succ_of_turn_fault {s : State} {r : Fault} (k : Nat) (h : turn (s.setRunState .fetching) = .fault r) :
    run (k + 1) s = s.setRunState (.faulted r) := by
  rw [run, runLoop, h]
  rfl

/-- Settles O21: the decoder rejects exactly the bytes the table does not hold, and a first turn that rejects ends the run. -/
theorem absentOpcodeByteIsUnimplemented : Obligations.AbsentOpcodeByteIsUnimplemented := by
  unfold Obligations.AbsentOpcodeByteIsUnimplemented
  refine ⟨fun ext o b1 b2 h0 hA9 hfree => ?anyExtension, fun o b1 b2 => ?emptyExtension, fun s k h0 hA9 hfree => ?run⟩
  case anyExtension => exact decode_eq_unimplementedOpcode.mpr ⟨h0, hA9, hfree⟩
  case emptyExtension =>
    rw [decode_eq_unimplementedOpcode]
    simp [DecodeExt.free]
  case run =>
    have hdecode : (s.setRunState .fetching).fetchDecode = .unimplementedOpcode (s.readByte s.pc) :=
      decode_eq_unimplementedOpcode.mpr ⟨h0, hA9, hfree⟩
    exact run_succ_of_turn_fault k (turn_of_unimplementedOpcode hdecode)

/-- Settles O19: the base entry of 0xA9 stands before every extension. -/
theorem byteA9DecodesToLdaImmediate : Obligations.ByteA9DecodesToLdaImmediate := by
  unfold Obligations.ByteA9DecodesToLdaImmediate
  exact fun ext a b2 => ⟨decode_A9 ext a b2, rfl, rfl, rfl, rfl, rfl⟩

end Sys2Proof.Machine
end

section
/-! PROOFS. What the first turn of a run can be, and what a run that has ended says of the steps before its end
(40_execution_cycle.md R62, R64); the fetch and the operand values (R50, R55 to R59). -/

namespace Sys2Proof.Machine

/-! ### What a turn can answer -/

/-- Every instruction has a meaning or a fault of the spec: dispatch refuses none (40_execution_cycle.md R52). -/
theorem exec_ne_refused (i : Instr) (s : State) (q : Refusal) : exec i s ≠ .refused q := by
  rw [exec_eq_handler]
  cases i.opcode with
  | lda =>
    simp only [execLda]
    cases resolveOperandValue i.mode (operandByte i) s <;> simp [State.raiseInternalConsistency]
  | brk =>
    simp only [execBrkMode]
    split <;> simp [State.raiseInternalConsistency]

theorem turn_ne_refused (s : State) (q : Refusal) : turn s ≠ .refused q := by
  cases hdecode : s.fetchDecode with
  | unimplementedOpcode o => simp [turn_of_unimplementedOpcode hdecode]
  | instr i =>
    simp only [turn, hdecode]
    cases hexec : exec i (s.setRunState .executing) with
    | next u => simp [leaveExecutingOn]
    | fault r => simp [leaveExecutingOn]
    | refused q' => exact absurd hexec (exec_ne_refused i _ q')

/-- A turn leaves Executing for Halted or for Fetching, or it faults (40_execution_cycle.md R62). -/
theorem turn_cases (s : State) :
    (∃ t : State, turn s = .next (t.setRunState .halted)) ∨ (∃ t : State, turn s = .next (t.setRunState .fetching)) ∨
      ∃ r : Fault, turn s = .fault r := by
  cases hturn : turn s with
  | next t =>
    obtain ⟨_, u, -, -, rfl⟩ := turn_next hturn
    cases hhalt : u.haltCondition with
    | true => exact .inl ⟨u, by simp [State.leaveExecuting, hhalt]⟩
    | false => exact .inr (.inl ⟨u, by simp [State.leaveExecuting, hhalt]⟩)
  | fault r => exact .inr (.inr ⟨r, rfl⟩)
  | refused q => exact absurd hturn (turn_ne_refused s q)

/-! ### A run by its first step -/

/-- A run whose first turn halts is at its end. -/
theorem run_succ_of_turn_halted {s t : State} (k : Nat)
    (h : turn (s.setRunState .fetching) = .next (t.setRunState .halted)) : run (k + 1) s = t.setRunState .halted := by
  simp [run, runLoop, h]

/-- A run whose first turn comes back to Fetching goes on as the run from there. -/
theorem run_succ_of_turn_fetching {s t : State} (k : Nat)
    (h : turn (s.setRunState .fetching) = .next (t.setRunState .fetching)) : run (k + 1) s = run k t := by
  simp [run, runLoop, h]

/-- The first step of a run halts it, takes it back to Fetching, or faults it; each with what the run then is, for every
bound (40_execution_cycle.md R62). -/
theorem run_succ_cases (s : State) :
    (∃ t : State, step (s.setRunState .fetching) = .next (t.setRunState .halted) ∧
      ∀ k, run (k + 1) s = t.setRunState .halted) ∨
    (∃ t : State, step (s.setRunState .fetching) = .next (t.setRunState .fetching) ∧ ∀ k, run (k + 1) s = run k t) ∨
    (∃ r : Fault, step (s.setRunState .fetching) = .fault r ∧ ∀ k, run (k + 1) s = s.setRunState (.faulted r)) := by
  have hstep : step (s.setRunState .fetching) = turn (s.setRunState .fetching) := rfl
  rw [hstep]
  rcases turn_cases (s.setRunState .fetching) with ⟨t, h⟩ | ⟨t, h⟩ | ⟨r, h⟩
  · exact .inl ⟨t, h, fun k => run_succ_of_turn_halted k h⟩
  · exact .inr (.inl ⟨t, h, fun k => run_succ_of_turn_fetching k h⟩)
  · exact .inr (.inr ⟨r, h, fun k => run_succ_of_turn_fault k h⟩)

/-! ### The end of a run -/

/-- A run that has ended is the same for every larger bound, by induction on the bound: the first step either ends the run
for every bound or leaves the rest of it, which has ended within one cycle less. -/
theorem run_add_of_ended {s : State} {k : Nat} (n : Nat) (h : (run k s).runState.ended = true) :
    run (k + n) s = run k s := by
  induction k generalizing s with
  | zero => cases h
  | succ k ih =>
    rw [Nat.succ_add]
    rcases run_succ_cases s with ⟨t, -, hrun⟩ | ⟨t, -, hrun⟩ | ⟨r, -, hrun⟩
    · rw [hrun, hrun]
    · rw [hrun] at h
      rw [hrun, hrun, ih h]
    · rw [hrun, hrun]

/-- A halted run is at the first halted state its steps reach. -/
theorem exists_steps_of_run_halted {s : State} {k : Nat} (h : (run k s).runState = .halted) :
    ∃ n : Nat, 0 < n ∧ n ≤ k ∧ Sys2Proof.core.run n (s.setRunState .fetching) = .next (run k s) ∧
      ∀ (m : Nat) (u : State), 0 < m → m < n → Sys2Proof.core.run m (s.setRunState .fetching) = .next u →
        u.runState = .fetching := by
  induction k generalizing s with
  | zero => cases h
  | succ k ih =>
    rcases run_succ_cases s with ⟨t, hstep, hrun⟩ | ⟨t, hstep, hrun⟩ | ⟨r, -, hrun⟩
    · refine ⟨1, Nat.one_pos, Nat.succ_pos k, ?_, fun m u hpos hlt => absurd hlt (by omega)⟩
      rw [hrun]
      exact coreRun_next 0 hstep
    · rw [hrun] at h
      obtain ⟨n, -, hle, hreach, hbetween⟩ := ih h
      refine ⟨n + 1, Nat.succ_pos n, Nat.succ_le_succ hle, ?_, fun m u hpos hlt hm => ?_⟩
      · rw [hrun, coreRun_next n hstep, hreach]
      · obtain ⟨m, rfl⟩ := Nat.exists_eq_add_one.mpr hpos
        rw [coreRun_next m hstep] at hm
        cases m with
        | zero =>
          cases hm
          rfl
        | succ m => exact hbetween (m + 1) u (Nat.succ_pos m) (Nat.lt_of_succ_lt_succ hlt) hm
    · rw [hrun] at h
      cases h

/-- A faulted run is at the state, otherwise unchanged, whose step faults (60_exceptions.md R88). -/
theorem exists_steps_of_run_faulted {s : State} {k : Nat} {r : Fault} (h : (run k s).runState = .faulted r) :
    ∃ (n : Nat) (u : State), n < k ∧ Sys2Proof.core.run n (s.setRunState .fetching) = .next u ∧
      u.runState = .fetching ∧ step u = .fault r ∧ run k s = u.setRunState (.faulted r) := by
  induction k generalizing s with
  | zero => cases h
  | succ k ih =>
    rcases run_succ_cases s with ⟨t, -, hrun⟩ | ⟨t, hstep, hrun⟩ | ⟨r', hstep, hrun⟩
    · rw [hrun] at h
      cases h
    · rw [hrun] at h ⊢
      obtain ⟨n, u, hlt, hreach, hu⟩ := ih h
      exact ⟨n + 1, u, Nat.succ_lt_succ hlt, (coreRun_next n hstep).trans hreach, hu⟩
    · rw [hrun] at h ⊢
      cases h
      exact ⟨0, s.setRunState .fetching, Nat.succ_pos k, rfl, rfl, hstep, rfl⟩

/-! ### The obligations -/

/-- Settles O54: each kind of end by induction on the bound, through the first step of the run. -/
theorem runIsStepRepeated : Obligations.RunIsStepRepeated := by
  unfold Obligations.RunIsStepRepeated
  exact fun s k => ⟨exists_steps_of_run_halted, fun r => exists_steps_of_run_faulted⟩

/-- Settles O55, by induction on the bound within which the run has ended. -/
theorem endOfRunIsTerminal : Obligations.EndOfRunIsTerminal := by
  unfold Obligations.EndOfRunIsTerminal
  exact fun s k n => run_add_of_ended n

/-- Settles O26: each mode is one arm of `resolveOperandValue`, with the wrapped sum of an indexed mode zero-extended. -/
theorem operandValueOfEachMode : Obligations.OperandValueOfEachMode := by
  unfold Obligations.OperandValueOfEachMode
  exact fun b s => ⟨rfl, rfl, rfl, rfl, rfl⟩

/-- Settles O43: the three cells by definition of the fetch; at the top of memory the addresses of the second and the third
wrap (40_execution_cycle.md R50). -/
theorem fetchReadsThreeBytes : Obligations.FetchReadsThreeBytes := by
  unfold Obligations.FetchReadsThreeBytes
  refine ⟨fun s => rfl, fun s hpc => ?_⟩
  have hsecond : (0xFFFF : Word) + 1 = 0x0000 := by decide
  have hthird : (0xFFFF : Word) + 2 = 0x0001 := by decide
  rw [State.fetch, hpc, hsecond, hthird]

end Sys2Proof.Machine
end

section
/-! PROOFS. The load family (41_load.md): what an `LDA` of any mode answers, its flags and its frame, and the form of each
mode as an instance of the general rule. -/

namespace Sys2Proof.Machine

/-! ### What an `LDA` answers -/

/-- The effect of a load as one record update (41_load.md R68). -/
theorem State.loadAccumulator_eq (s : State) (m : AddressMode) (v : Byte) :
    s.loadAccumulator m v =
      { s with a := v, p := { s.p with z := v == 0x00, n := v.getLsbD 7 },
               pc := s.pc + BitVec.ofNat 16 (1 + m.operandBytes) } := rfl

/-- The modes without an operand value are Implicit and Relative (40_execution_cycle.md R54, R60). -/
theorem resolveOperandValue_eq_none {m : AddressMode} {b : Byte} {s : State} :
    resolveOperandValue m b s = none ↔ m = .implicit ∨ m = .relative := by
  cases m <;> simp [resolveOperandValue]

/-- Every `LDA` is the one handler on its own mode. -/
theorem exec_eq_execLda {i : Instr} (s : State) (h : i.opcode = .lda) :
    exec i s = execLda i.mode (operandByte i) s := by
  rw [exec_eq_handler, h]

/-- An `LDA` that answers a next state has loaded its operand value. -/
theorem exec_lda_next {i : Instr} {s t : State} (hop : i.opcode = .lda) (h : exec i s = .next t) :
    ∃ v, t = s.loadAccumulator i.mode v := by
  rw [exec_eq_execLda s hop] at h
  obtain ⟨v, -, ht⟩ := execLda_next.mp h
  exact ⟨v, ht⟩

/-- A value without a one bit has no bit 7: a load never sets both flags (41_load.md R68). -/
theorem not_zeroFlag_and_negativeFlag (v : Byte) : ¬ (zeroFlag v = true ∧ negativeFlag v = true) := by
  rintro ⟨hzero, hnegative⟩
  have hv : v = 0x00 := by simpa [zeroFlag] using hzero
  simp [hv, negativeFlag] at hnegative

/-- Byte 0xA5 under `DECODE_EXT_LDA_ZP` (30_encoding.md R44). -/
theorem decode_ldaZeroPage (b b2 : Byte) : decode decodeExtLdaZp 0xA5 b b2 = .instr (.ldaZeroPage b) := rfl

/-- Byte 0xB5 under `DECODE_EXT_LDA_ZP` (30_encoding.md R44). -/
theorem decode_ldaZeroPageX (b b2 : Byte) : decode decodeExtLdaZp 0xB5 b b2 = .instr (.ldaZeroPageX b) := rfl

/-! ### The obligations -/

/-- Settles O33: every `LDA` is `ExecLDA` on its own mode, which asks only whether the mode yields a value. -/
theorem ldaGeneralRule : Obligations.LdaGeneralRule := by
  unfold Obligations.LdaGeneralRule
  intro i s hop
  rw [exec_eq_execLda s hop]
  refine ⟨fun v hv => ?value, fun hmode => ?noValue, fun himplicit hrelative => ?others⟩
  case value => exact execLda_next.mpr ⟨v, hv, (s.loadAccumulator_eq i.mode v).symm⟩
  case noValue =>
    rw [execLda, resolveOperandValue_eq_none.mpr hmode]
    rfl
  case others =>
    exact Option.ne_none_iff_exists'.mp fun hnone =>
      (resolveOperandValue_eq_none.mp hnone).elim himplicit hrelative

/-- Settles O34: both flags are functions of the one value that went to `A`. -/
theorem ldaNegativeFlagIsSignBit : Obligations.LdaNegativeFlagIsSignBit := by
  unfold Obligations.LdaNegativeFlagIsSignBit
  intro i s t hop hexec
  obtain ⟨v, rfl⟩ := exec_lda_next hop hexec
  exact ⟨rfl, rfl, not_zeroFlag_and_negativeFlag v⟩

/-- Settles O35: the only effect of an `LDA` is `loadAccumulator`, which has no part in any of these fields. -/
theorem ldaFrame : Obligations.LdaFrame := by
  unfold Obligations.LdaFrame
  intro i s t hop hexec
  obtain ⟨v, rfl⟩ := exec_lda_next hop hexec
  simp

/-- Settles O28: the general rule with the operand byte as the value; byte 0xA9 by `decode_A9`. -/
theorem ldaImmediateResult : Obligations.LdaImmediateResult := by
  unfold Obligations.LdaImmediateResult
  intro b b2 s
  obtain ⟨hload, -, -⟩ := ldaGeneralRule (.ldaImmediate b) s rfl
  exact ⟨decode_A9 s.decodeExt b b2, hload b rfl⟩

/-- Settles O29: the general rule with the zero-page cell as the value. -/
theorem ldaZeroPageResult : Obligations.LdaZeroPageResult := by
  unfold Obligations.LdaZeroPageResult
  rintro b b2 v s rfl
  obtain ⟨hload, -, -⟩ := ldaGeneralRule (.ldaZeroPage b) s rfl
  exact ⟨decode_ldaZeroPage b b2, hload _ rfl⟩

/-- Settles O30: the general rule with the cell at the wrapped sum of the operand byte and `X` as the value. -/
theorem ldaZeroPageXResult : Obligations.LdaZeroPageXResult := by
  unfold Obligations.LdaZeroPageXResult
  rintro b b2 v s rfl
  obtain ⟨hload, -, -⟩ := ldaGeneralRule (.ldaZeroPageX b) s rfl
  exact ⟨decode_ldaZeroPageX b b2, hload _ rfl⟩

/-- Settles O31: the general rule with the cell at the wrapped sum of the operand byte and `Y` as the value. -/
theorem ldaZeroPageYResult : Obligations.LdaZeroPageYResult := by
  unfold Obligations.LdaZeroPageYResult
  rintro b v s rfl
  obtain ⟨hload, -, -⟩ := ldaGeneralRule (.ldaZeroPageY b) s rfl
  exact hload _ rfl

/-- Settles O32: the general rule with `A` itself as the value. -/
theorem ldaAccumulatorResult : Obligations.LdaAccumulatorResult := by
  unfold Obligations.LdaAccumulatorResult
  intro s
  obtain ⟨hload, -, -⟩ := ldaGeneralRule .ldaAccumulator s rfl
  exact hload s.a rfl

end Sys2Proof.Machine
end

section
/-! PROOFS. The system family (42_system.md): what `BRK` answers, the three cells it pushes, and the vector it jumps through. -/

namespace Sys2Proof.Machine

/-- `BRK` takes the software interrupt in every state (42_system.md R76). -/
theorem exec_brk (s : State) : exec .brk s = .next s.takeSoftwareInterrupt := rfl

/-- The vector slot's two cells, the low byte first (20_memory.md R25). -/
theorem State.vectorTarget_eq (s : State) : s.vectorTarget = joinBytes (s.readByte 0xFFFF) (s.readByte 0xFFFE) := rfl

/-- Moving `SP` by fewer than 256 steps designates another cell (the stack is circular, 20_memory.md R28). -/
theorem stackAddr_ne_stackAddr_sub (sp : Byte) {n : Nat} (hpos : 0 < n) (hlt : n < 256) :
    stackAddr sp ≠ stackAddr (sp - BitVec.ofNat 8 n) :=
  fun h => sub_ofNat_ne_self sp hpos hlt (stackAddr_inj.mp h).symm

/-! ### The cells of the pushed frame -/

/-- The last push stands in the cell of `SP - 2`. -/
theorem State.takeSoftwareInterrupt_readByte_status (s : State) :
    s.takeSoftwareInterrupt.readByte (stackAddr (s.sp - 2)) = asByte s.p.afterBreak := by
  rw [State.takeSoftwareInterrupt_readByte, if_pos rfl]

/-- The low byte of `pc + 2` stays: the push of the status byte is to another cell. -/
theorem State.takeSoftwareInterrupt_readByte_lo (s : State) :
    s.takeSoftwareInterrupt.readByte (stackAddr (s.sp - 1)) = lo (s.pc + 2) := by
  have hstatus : stackAddr (s.sp - 1) ≠ stackAddr (s.sp - 2) := by
    rw [← sub_one_one]
    exact stackAddr_ne_stackAddr_sub (s.sp - 1) (n := 1) (by decide) (by decide)
  rw [State.takeSoftwareInterrupt_readByte, if_neg hstatus, if_pos rfl]

/-- The high byte of `pc + 2` stays: the two later pushes are to other cells. -/
theorem State.takeSoftwareInterrupt_readByte_hi (s : State) :
    s.takeSoftwareInterrupt.readByte (stackAddr s.sp) = hi (s.pc + 2) := by
  have hlo : stackAddr s.sp ≠ stackAddr (s.sp - 1) :=
    stackAddr_ne_stackAddr_sub s.sp (n := 1) (by decide) (by decide)
  have hstatus : stackAddr s.sp ≠ stackAddr (s.sp - 2) :=
    stackAddr_ne_stackAddr_sub s.sp (n := 2) (by decide) (by decide)
  rw [State.takeSoftwareInterrupt_readByte, if_neg hstatus, if_neg hlo, if_pos rfl]

/-- The interrupt writes the three cells of its frame and no other. -/
theorem State.takeSoftwareInterrupt_readByte_of_ne (s : State) {addr : Word} (hhi : addr ≠ stackAddr s.sp)
    (hlo : addr ≠ stackAddr (s.sp - 1)) (hstatus : addr ≠ stackAddr (s.sp - 2)) :
    s.takeSoftwareInterrupt.readByte addr = s.readByte addr := by
  rw [State.takeSoftwareInterrupt_readByte, if_neg hstatus, if_neg hlo, if_neg hhi]

/-! ### The obligation -/

/-- Settles O37: the next state is the software interrupt's; its registers and its cells are the lemmas above. -/
theorem brkPushesFrameAndVectors : Obligations.BrkPushesFrameAndVectors := by
  unfold Obligations.BrkPushesFrameAndVectors
  intro s
  obtain ⟨ha, hx, hy, hsp, hpc, hp, hrun, hext⟩ := s.takeSoftwareInterrupt_registers
  exact ⟨s.takeSoftwareInterrupt, exec_brk s, hpc.trans s.vectorTarget_eq, hsp, hp,
    s.takeSoftwareInterrupt_readByte_hi, s.takeSoftwareInterrupt_readByte_lo, s.takeSoftwareInterrupt_readByte_status,
    fun _ hhi hlo hstatus => s.takeSoftwareInterrupt_readByte_of_ne hhi hlo hstatus, ha, hx, hy, hrun, hext⟩

end Sys2Proof.Machine
end

section
/-! PROOFS. The decode table as a finite map, and decode and encode as inverses on the instructions it names
(30_encoding.md sections 1, 3 and 4). -/

namespace Sys2Proof

/-! ### Tables as finite maps -/

/-- The table of the whole machine is a finite map exactly where the extension is one off the base bytes. -/
theorem keysDistinct_decodeTable (ext : List DecodeEntry) :
    DecodeExt.keysDistinct (decodeTable ext) = DecodeExt.wf ext := by
  simp [decodeTable, decodeBase, DecodeExt.keysDistinct, DecodeExt.free, DecodeExt.wf, Bool.and_assoc]

/-- What a lookup answers stands in the table. -/
theorem mem_of_lookupOpcode {t : List DecodeEntry} {o : Byte} {op : Opcode} {m : AddressMode}
    (h : lookupOpcode t o = some (op, m)) : (⟨o, op, m⟩ : DecodeEntry) ∈ t := by
  induction t with
  | nil => cases h
  | cons e t ih =>
    rw [lookupOpcode] at h
    split at h
    case isTrue hkey =>
      cases h
      exact hkey ▸ List.mem_cons_self
    case isFalse => exact List.mem_cons_of_mem _ (ih h)

/-- In a finite map every entry is the one its opcode byte is looked up to. -/
theorem lookupOpcode_of_mem {t : List DecodeEntry} {e : DecodeEntry} (hkeys : DecodeExt.keysDistinct t = true)
    (he : e ∈ t) : lookupOpcode t e.byte = some (e.opcode, e.mode) := by
  induction t with
  | nil => cases he
  | cons e' t ih =>
    obtain ⟨hfree, hrest⟩ : DecodeExt.free e'.byte t = true ∧ DecodeExt.keysDistinct t = true := by
      simpa [DecodeExt.keysDistinct] using hkeys
    rcases List.mem_cons.mp he with rfl | hmem
    · rw [lookupOpcode, if_pos rfl]
    · have hlookup := ih hrest hmem
      have hother : e'.byte ≠ e.byte := fun hsame => by
        rw [← hsame, lookupOpcode_eq_none.mpr hfree] at hlookup
        cases hlookup
      rw [lookupOpcode, if_neg hother, hlookup]

/-- An instruction is well formed in a table exactly where some entry names its pair. -/
theorem wellFormedIn_iff {t : List DecodeEntry} {i : Instr} :
    Instr.wellFormedIn t i = true ↔ ∃ e ∈ t, e.opcode = i.opcode ∧ e.mode = i.mode := by
  induction t with
  | nil => simp [Instr.wellFormedIn]
  | cons e t ih => simp [Instr.wellFormedIn, ih]

/-- The opcode byte the encoder picks for a pair stands in the table with that pair. -/
theorem mem_of_opcodeByte {t : List DecodeEntry} {o : Byte} {op : Opcode} {m : AddressMode}
    (h : opcodeByte t op m = some o) : (⟨o, op, m⟩ : DecodeEntry) ∈ t := by
  induction t with
  | nil => cases h
  | cons e t ih =>
    rw [opcodeByte] at h
    split at h
    case isTrue hpair =>
      obtain ⟨rfl, rfl⟩ := hpair
      cases h
      exact List.mem_cons_self
    case isFalse => exact List.mem_cons_of_mem _ (ih h)

/-- The encoder finds an opcode byte for the pair of every entry. -/
theorem exists_opcodeByte_of_mem {t : List DecodeEntry} {e : DecodeEntry} (he : e ∈ t) :
    ∃ o, opcodeByte t e.opcode e.mode = some o := by
  induction t with
  | nil => cases he
  | cons e' t ih =>
    rw [opcodeByte]
    split
    case isTrue => exact ⟨_, rfl⟩
    case isFalse hother =>
      rcases List.mem_cons.mp he with rfl | hmem
      · exact absurd ⟨rfl, rfl⟩ hother
      · exact ih hmem

/-- A well-formed instruction encodes to an opcode byte of its pair, followed by its tail. -/
theorem exists_encode_of_wellFormedIn {t : List DecodeEntry} {i : Instr} (h : Instr.wellFormedIn t i = true) :
    ∃ o, (⟨o, i.opcode, i.mode⟩ : DecodeEntry) ∈ t ∧ encode t i = some (o :: i.tailBytes) := by
  obtain ⟨e, he, hop, hmode⟩ := wellFormedIn_iff.mp h
  obtain ⟨o, ho⟩ := exists_opcodeByte_of_mem he
  rw [hop, hmode] at ho
  exact ⟨o, mem_of_opcodeByte ho, by simp only [encode, ho]⟩

/-! ### The decoded record -/

/-- The first slot of the record holds the second byte exactly where the mode counts one. -/
theorem Instr.ofPair_operand1 (op : Opcode) (m : AddressMode) (b1 : Byte) :
    (Instr.ofPair op m b1).operand1 = if m.operandBytes = 0 then none else some b1 := by
  cases op <;> cases m <;> rfl

/-- An instruction is the record of its pair and of the first byte after its opcode byte, whatever follows. -/
theorem Instr.ofPair_tailBytes (i : Instr) (rest : List Byte) :
    Instr.ofPair i.opcode i.mode ((i.tailBytes ++ rest).getD 0 0x00) = i := by
  cases i <;> rfl

/-- The bytes of each format: `FB` has two, `F0` and `F1` have the length of the mode (30_encoding.md R38, R46). -/
theorem Instr.tailBytes_length (i : Instr) :
    i.tailBytes.length + 1 = if i = .brk then 2 else i.mode.len := by
  cases i <;> rfl

theorem decode_of_lookupOpcode {ext : List DecodeEntry} {o : Byte} {op : Opcode} {m : AddressMode} (b1 b2 : Byte)
    (h : lookupOpcode (decodeTable ext) o = some (op, m)) : decode ext o b1 b2 = .instr (Instr.ofPair op m b1) := by
  simp only [decode, h]

/-- An instruction that `decode` answers is the record of the pair the table gives the opcode byte. -/
theorem decode_eq_instr {ext : List DecodeEntry} {o b1 b2 : Byte} {i : Instr} (h : decode ext o b1 b2 = .instr i) :
    ∃ op m, lookupOpcode (decodeTable ext) o = some (op, m) ∧ i = Instr.ofPair op m b1 := by
  rcases decode_cases ext o b1 b2 with ⟨op, m, hlookup, hdecode⟩ | ⟨-, hdecode⟩
  · rw [hdecode] at h
    cases h
    exact ⟨op, m, hlookup, rfl⟩
  · rw [hdecode] at h
    cases h

/-! ### The obligations -/

/-- Settles O25: the encoder's opcode byte stands in the table with the instruction's pair, a finite map looks it up to
that pair, and the record of the pair and the tail is the instruction. -/
theorem decodeOfEncodeIsTheInstruction : Obligations.DecodeOfEncodeIsTheInstruction := by
  unfold Obligations.DecodeOfEncodeIsTheInstruction
  intro ext i hwf hi
  obtain ⟨o, hmem, hencode⟩ := exists_encode_of_wellFormedIn hi
  have hlookup := lookupOpcode_of_mem ((keysDistinct_decodeTable ext).trans hwf) hmem
  refine ⟨o :: i.tailBytes, hencode, i.tailBytes_length, fun rest => ?_⟩
  calc decodeBytes ext (o :: i.tailBytes ++ rest)
      = .instr (Instr.ofPair i.opcode i.mode ((i.tailBytes ++ rest).getD 0 0x00)) := decode_of_lookupOpcode _ _ hlookup
    _ = .instr i := by rw [i.ofPair_tailBytes]

/-- Settles O22: a finite map looks each entry up, also behind the base entries. -/
theorem extensionEntryDecodesToItsPair : Obligations.ExtensionEntryDecodesToItsPair := by
  unfold Obligations.ExtensionEntryDecodesToItsPair
  intro ext e b1 b2 hwf he
  have hlookup : lookupOpcode (decodeTable ext) e.byte = some (e.opcode, e.mode) :=
    lookupOpcode_of_mem ((keysDistinct_decodeTable ext).trans hwf) (List.mem_append_right decodeBase he)
  exact ⟨_, decode_of_lookupOpcode b1 b2 hlookup, Instr.ofPair_opcode _ _ _, Instr.ofPair_mode _ _ _,
    Instr.ofPair_operand1 _ _ _, rfl⟩

/-- Settles O23: the record is made from an entry of the table. -/
theorem decodedInstructionIsWellFormed : Obligations.DecodedInstructionIsWellFormed := by
  unfold Obligations.DecodedInstructionIsWellFormed
  intro ext o b1 b2 i hdecode
  obtain ⟨op, m, hlookup, rfl⟩ := decode_eq_instr hdecode
  have hnamed : Instr.wellFormedIn (decodeTable ext) (Instr.ofPair op m b1) = true :=
    wellFormedIn_iff.mpr
      ⟨_, mem_of_lookupOpcode hlookup, (Instr.ofPair_opcode _ _ _).symm, (Instr.ofPair_mode _ _ _).symm⟩
  rw [Instr.ofPair_operand1, Instr.ofPair_opcode, Instr.ofPair_mode]
  exact ⟨hnamed, hlookup, rfl, rfl⟩

/-- Byte 0x00 under every extension (30_encoding.md R42). -/
theorem decode_00 (ext : List DecodeEntry) (b1 b2 : Byte) : decode ext 0x00 b1 b2 = .instr .brk :=
  decode_of_lookupOpcode b1 b2 (lookupOpcode_decodeTable ext 0x00)

/-- Settles O20: the base entry of 0x00 stands before every extension. -/
theorem byte00DecodesToBrk : Obligations.Byte00DecodesToBrk := by
  unfold Obligations.Byte00DecodesToBrk
  exact fun ext b1 b2 => ⟨decode_00 ext b1 b2, rfl, rfl, rfl, rfl⟩

/-- Settles O24: the base bytes and the extension bytes by their decoding lemmas, the absent ones because no key is
theirs. -/
theorem specWordsDecode : Obligations.SpecWordsDecode := by
  unfold Obligations.SpecWordsDecode
  exact ⟨decode_A9 [] 0x42 0x00, decode_00 [] 0x55 0x66,
    decode_eq_unimplementedOpcode.mpr (by decide), Machine.decode_ldaZeroPage 0x10 0x00,
    Machine.decode_ldaZeroPageX 0x10 0x00, decode_eq_unimplementedOpcode.mpr (by decide)⟩

/-- Settles O18, mode by mode. -/
theorem modeLengths : Obligations.ModeLengths := by
  unfold Obligations.ModeLengths
  intro m
  cases m <;> exact ⟨rfl, rfl⟩

end Sys2Proof
end

section
/-! PROOFS. Memory as the 65536 cells, reset, the flags' round trip, regions and addresses, the stack primitives and the
loader (10_state.md, 20_memory.md). -/

namespace Sys2Proof.Machine

theorem ofNat_toNat_of_lt {n : Nat} (h : n < 65536) : (BitVec.ofNat 16 n).toNat = n := by
  rw [BitVec.toNat_ofNat]
  exact Nat.mod_eq_of_lt h

/-! ### Canonical memories -/

/-- A cell below every listed one reads as an unlisted cell. -/
theorem Memory.read_of_lt_low {low : Nat} {m : Memory} {addr : Word} (h : Memory.wfFrom low m = true)
    (hlt : addr.toNat < low) : Memory.read m addr = Config.unlistedByte := by
  rw [← Memory.erase_lower h hlt]
  exact Memory.read_erase_same m addr

/-- A canonical memory is canonical from its lowest listed cell on. -/
theorem Memory.wfFrom_head {low k : Nat} {v : Byte} {t : Memory} (h : Memory.wfFrom low ((k, v) :: t) = true) :
    Memory.wfFrom k ((k, v) :: t) = true := by
  obtain ⟨-, hk, hv, ht⟩ := Memory.wfFrom_cons.mp h
  exact Memory.wfFrom_cons.mpr ⟨Nat.le_refl k, hk, hv, ht⟩

/-- The lowest listed cell can be told from the reads: `(k, v) :: t` reads `v` at `k`, which no memory does whose listed
cells all lie above `k`. -/
theorem Memory.low_le_of_read_eq {low low' k : Nat} {v : Byte} {t m : Memory}
    (h : Memory.wfFrom low ((k, v) :: t) = true) (hm : Memory.wfFrom low' m = true)
    (hread : ∀ addr : Word, Memory.read ((k, v) :: t) addr = Memory.read m addr) : low' ≤ k := by
  obtain ⟨-, hk, hv, -⟩ := Memory.wfFrom_cons.mp h
  have hcell : (BitVec.ofNat 16 k).toNat = k := ofNat_toNat_of_lt hk
  refine Nat.le_of_not_lt fun hbelow => ?_
  have hbyte := hread (BitVec.ofNat 16 k)
  rw [Memory.read, if_pos hcell.symm, Memory.read_of_lt_low hm (hcell.symm ▸ hbelow)] at hbyte
  exact hv hbyte

/-- Canonical memories that read alike have the same lowest listed cell with the same byte, and tails that read alike: by
induction on the list. -/
theorem Memory.eq_of_read_eq {low low' : Nat} {m m' : Memory} (hm : Memory.wfFrom low m = true)
    (hm' : Memory.wfFrom low' m' = true) (h : ∀ addr : Word, Memory.read m addr = Memory.read m' addr) : m = m' := by
  have hsymm : ∀ addr : Word, Memory.read m' addr = Memory.read m addr := fun addr => (h addr).symm
  induction m generalizing low low' m' with
  | nil =>
    cases m' with
    | nil => rfl
    | cons e' t' => exact absurd (Memory.low_le_of_read_eq (low' := e'.1 + 1) hm' rfl hsymm) (Nat.not_succ_le_self _)
  | cons e t ih =>
    cases m' with
    | nil => exact absurd (Memory.low_le_of_read_eq (low' := e.1 + 1) hm rfl h) (Nat.not_succ_le_self _)
    | cons e' t' =>
      obtain ⟨k, v⟩ := e
      obtain ⟨k', v'⟩ := e'
      obtain rfl : k = k' := Nat.le_antisymm (Memory.low_le_of_read_eq hm' (Memory.wfFrom_head hm) hsymm)
        (Memory.low_le_of_read_eq hm (Memory.wfFrom_head hm') h)
      obtain ⟨-, hk, -, ht⟩ := Memory.wfFrom_cons.mp hm
      obtain ⟨-, -, -, ht'⟩ := Memory.wfFrom_cons.mp hm'
      have hbyte : v = v' := by simpa [Memory.read, ofNat_toNat_of_lt hk] using h (BitVec.ofNat 16 k)
      have htails : ∀ addr : Word, Memory.read t addr = Memory.read t' addr := fun addr => by
        by_cases hsame : k = addr.toNat
        · rw [Memory.read_of_lt_low ht (by omega), Memory.read_of_lt_low ht' (by omega)]
        · simpa [Memory.read, hsame] using h addr
      rw [hbyte, ih ht ht' htails fun addr => (htails addr).symm]

/-- Settles O10, by induction on the first memory. -/
theorem canonicalMemoriesThatReadAlikeAreEqual : Obligations.CanonicalMemoriesThatReadAlikeAreEqual := by
  unfold Obligations.CanonicalMemoriesThatReadAlikeAreEqual
  exact fun m m' => Memory.eq_of_read_eq

/-! ### Reset and the flags -/

/-- Memory is zero-filled at construction (10_state.md R17). -/
theorem State.construct_readByte (cfg : Config) (addr : Word) : (State.construct cfg).readByte addr = 0x00 := rfl

theorem State.construct_vectorTarget (cfg : Config) : (State.construct cfg).vectorTarget = 0x0000 := by
  rw [State.vectorTarget_eq, State.construct_readByte, State.construct_readByte]
  decide

/-- Settles O2: each field is a field of the construction, and every cell is unlisted. -/
theorem resetRegistersAndMemory : Obligations.ResetRegistersAndMemory := by
  unfold Obligations.ResetRegistersAndMemory
  exact ⟨fun cfg => ⟨rfl, rfl, rfl, rfl, rfl, rfl, rfl, State.construct_readByte cfg,
    State.construct_vectorTarget cfg⟩, rfl⟩

/-- The construction meets the invariant: the empty memory is canonical, `Z` and `N` are clear, the run is Fetching. -/
theorem State.construct_inv {cfg : Config} (h : DecodeExt.wf cfg.decodeExt = true) : (State.construct cfg).Inv :=
  ⟨State.construct_mem_wf cfg, h, fun hzn => Bool.false_ne_true hzn.1, fun hhalted => nomatch hhalted⟩

/-- Settles O3: reset is the construction with the empty extension. -/
theorem resetMeetsInvariant : Obligations.ResetMeetsInvariant := by
  unfold Obligations.ResetMeetsInvariant
  exact ⟨State.construct_inv rfl, fun cfg => State.construct_inv⟩

/-- Settles O7: each flag is the bit of the status byte that it went to. -/
theorem flagsRoundTripThroughTheByte : Obligations.FlagsRoundTripThroughTheByte := by
  unfold Obligations.FlagsRoundTripThroughTheByte
  intro p
  rw [fromByte, asByte_getLsbD_zero, asByte_getLsbD_one, asByte_getLsbD_two, asByte_getLsbD_three, asByte_getLsbD_four,
    asByte_getLsbD_six, asByte_getLsbD_seven]

/-! ### Regions and addresses -/

/-- Settles O11, along the three bounds that `regionOf` compares with. -/
theorem regionsCoverTheAddressSpace : Obligations.RegionsCoverTheAddressSpace := by
  unfold Obligations.RegionsCoverTheAddressSpace
  intro addr
  have htop := addr.isLt
  unfold regionOf
  by_cases hzero : addr.toNat < 0x0100
  · simp [hzero]; omega
  by_cases hstack : addr.toNat < 0x0200
  · simp [hzero, hstack]; omega
  by_cases hram : addr.toNat < 0xFFFE
  · simp [hzero, hstack, hram]; omega
  · simp [hzero, hstack, hram]; omega

theorem zext16_toNat (b : Byte) : (zext16 b).toNat = b.toNat := by
  have := b.isLt
  simp [zext16]
  omega

/-- A zero-extended byte is an address of the zero page. -/
theorem regionOf_zext16 (b : Byte) : regionOf (zext16 b) = .zeroPage := by
  have := b.isLt
  rw [regionOf, if_pos (by rw [zext16_toNat]; omega)]

/-- Settles O27: both addresses are zero-extended bytes, the indexed one of the sum modulo 256. -/
theorem zeroPageAddressesStayInZeroPage : Obligations.ZeroPageAddressesStayInZeroPage := by
  unfold Obligations.ZeroPageAddressesStayInZeroPage
  intro b index
  exact ⟨zext16_toNat b, (zext16_toNat _).trans (BitVec.toNat_add b index), regionOf_zext16 b, regionOf_zext16 _⟩

theorem joinBytes_toNat (h l : Byte) : (joinBytes h l).toNat = 256 * h.toNat + l.toNat := by
  have := l.isLt
  rw [joinBytes, BitVec.toNat_append, ← Nat.shiftLeft_add_eq_or_of_lt this, Nat.shiftLeft_eq]
  omega

/-- Settles O12: the slot's two cells joined, the one of the higher address in the high bits. -/
theorem vectorTargetIsLittleEndian : Obligations.VectorTargetIsLittleEndian := by
  unfold Obligations.VectorTargetIsLittleEndian
  intro s
  rw [State.vectorTarget_eq, joinBytes_toNat]

/-! ### The stack primitives -/

/-- Settles O13: a push is a write of the cell `SP` designates and an update of `SP`. -/
theorem pushWritesThenDecrements : Obligations.PushWritesThenDecrements := by
  unfold Obligations.PushWritesThenDecrements
  exact fun s v => ⟨stackAddr_toNat s.sp, s.push_sp v, s.push_readByte v, rfl⟩

/-- A pop after a push reads the pushed cell, and `SP` comes back. -/
theorem State.pop_push (s : State) (v : Byte) : (s.push v).pop = (v, s.writeByte (stackAddr s.sp) v) := by
  have hsp : s.sp - 1 + 1 = s.sp := BitVec.sub_add_cancel s.sp 1
  rw [State.pop, State.push_sp, hsp, State.push_readByte, if_pos rfl]
  rfl

/-- Settles O14: the pop by definition, and `State.pop_push`. -/
theorem popUndoesPush : Obligations.PopUndoesPush := by
  unfold Obligations.PopUndoesPush
  exact ⟨fun s => rfl, State.pop_push⟩

/-! ### The loader -/

theorem State.loadProgram_of_le {s : State} {bytes : List Byte} (h : bytes.length ≤ 65022) :
    s.loadProgram bytes = .loaded (s.storeBytes 0x0200 bytes) := if_pos h

/-- Settles O17: the capacity test fails. -/
theorem loaderRejectsProgramTooLarge : Obligations.LoaderRejectsProgramTooLarge := by
  unfold Obligations.LoaderRejectsProgramTooLarge
  exact fun s bytes hlong => if_neg (Nat.not_le_of_lt hlong)

/-- Storing bytes writes memory and no other field. -/
theorem State.storeBytes_frame (s : State) (addr : Word) (bs : List Byte) :
    s.storeBytes addr bs = { s with mem := (s.storeBytes addr bs).mem } := by
  induction bs generalizing s addr with
  | nil => rfl
  | cons b bs ih => exact ih (s.writeByte addr b) (addr + 1)

/-- What a program that fits leaves in each cell. -/
theorem State.storeProgram_readByte (s : State) {bytes : List Byte} (h : bytes.length ≤ 65022) (addr : Word) :
    (s.storeBytes 0x0200 bytes).readByte addr =
      if 0x0200 ≤ addr.toNat ∧ addr.toNat < 0x0200 + bytes.length then bytes.getD (addr.toNat - 0x0200) 0
      else s.readByte addr := by
  have hstart : (0x0200 : Word).toNat = 0x0200 := rfl
  rw [State.storeBytes_readByte s 0x0200 addr bytes (by omega), hstart]

/-- Settles O16: the loaded state is the storing of the bytes from 0x0200, whose cells `State.storeProgram_readByte`
gives. -/
theorem loaderPlacesProgramAndNothingElse : Obligations.LoaderPlacesProgramAndNothingElse := by
  unfold Obligations.LoaderPlacesProgramAndNothingElse
  intro s bytes hfits
  refine ⟨s.storeBytes 0x0200 bytes, State.loadProgram_of_le hfits, fun i hi => ?placed, fun addr houtside => ?kept,
    s.storeBytes_frame 0x0200 bytes⟩
  case placed =>
    have hcell : (BitVec.ofNat 16 (0x0200 + i)).toNat = 0x0200 + i := ofNat_toNat_of_lt (by omega)
    rw [s.storeProgram_readByte hfits, hcell, if_pos (by omega), Nat.add_sub_cancel_left,
      List.getD_eq_getElem?_getD, List.getElem?_eq_getElem hi, Option.getD_some]
  case kept => rw [s.storeProgram_readByte hfits, if_neg (by omega)]

end Sys2Proof.Machine
end

section
/-! PROOFS. Dispatch: which pairs have a meaning, and what the run state has to do with an instruction
(40_execution_cycle.md section 2, 42_system.md). -/

namespace Sys2Proof.Machine

/-! ### The pairs without a meaning -/

/-- The pairs that raise the internal-consistency fault (41_load.md R74, 42_system.md R77). -/
def LacksMeaning (i : Instr) : Prop :=
  (i.opcode = .lda ∧ (i.mode = .implicit ∨ i.mode = .relative)) ∨ (i.opcode = .brk ∧ i.mode ≠ .implicit)

/-- Such a pair faults in every state, with its own opcode, mode and `pc`. -/
theorem exec_of_lacksMeaning {i : Instr} (s : State) (h : LacksMeaning i) :
    exec i s = .fault (.internalConsistencyFault i.opcode i.mode s.pc) := by
  rcases h with ⟨hop, hmode⟩ | ⟨hop, hmode⟩
  · obtain ⟨-, hnoValue, -⟩ := ldaGeneralRule i s hop
    rw [hop, hnoValue hmode]
  · rw [exec_eq_handler, hop]
    exact if_neg hmode

/-- Every other instruction answers a next state. -/
theorem exists_exec_next {i : Instr} (s : State) (h : ¬ LacksMeaning i) : ∃ t, exec i s = .next t := by
  cases hop : i.opcode with
  | lda =>
    obtain ⟨hload, -, hvalue⟩ := ldaGeneralRule i s hop
    obtain ⟨v, hv⟩ := hvalue (fun hm => h (.inl ⟨hop, .inl hm⟩)) (fun hm => h (.inl ⟨hop, .inr hm⟩))
    exact ⟨_, hload v hv⟩
  | brk =>
    have himplicit : i.mode = .implicit := Decidable.byContradiction fun hm => h (.inr ⟨hop, hm⟩)
    rw [exec_eq_handler, hop]
    exact ⟨s.takeSoftwareInterrupt, if_pos himplicit⟩

/-- An instruction faults on account of its pair alone, and only `pc` goes into the fault. -/
theorem exec_fault_iff {i : Instr} {s : State} {f : Fault} :
    exec i s = .fault f ↔ LacksMeaning i ∧ f = .internalConsistencyFault i.opcode i.mode s.pc := by
  by_cases h : LacksMeaning i
  · simp [exec_of_lacksMeaning s h, h, eq_comm]
  · obtain ⟨t, ht⟩ := exists_exec_next s h
    simp [ht, h]

/-- Settles O41, from the two lemmas on `LacksMeaning`. -/
theorem dispatchFaultsExactlyOnPairsWithoutMeaning : Obligations.DispatchFaultsExactlyOnPairsWithoutMeaning := by
  unfold Obligations.DispatchFaultsExactlyOnPairsWithoutMeaning
  exact fun i s => ⟨exec_of_lacksMeaning s, exists_exec_next s⟩

/-- Settles O36: both pairs lack a meaning. -/
theorem ldaWithoutValueFaults : Obligations.LdaWithoutValueFaults := by
  unfold Obligations.LdaWithoutValueFaults
  exact fun b s => ⟨exec_of_lacksMeaning s (.inl ⟨rfl, .inl rfl⟩), exec_of_lacksMeaning s (.inl ⟨rfl, .inr rfl⟩)⟩

/-- A `BRK` of another mode than Implicit faults (42_system.md R77). -/
theorem exec_brk_of_mode_ne {i : Instr} (s : State) (hop : i.opcode = .brk) (hmode : i.mode ≠ .implicit) :
    exec i s = .fault (.internalConsistencyFault .brk i.mode s.pc) :=
  hop ▸ exec_of_lacksMeaning s (.inr ⟨hop, hmode⟩)

/-- Settles O39: none of the six modes is Implicit. -/
theorem brkOtherModesFault : Obligations.BrkOtherModesFault := by
  unfold Obligations.BrkOtherModesFault
  exact fun b s => ⟨exec_brk_of_mode_ne s rfl nofun, exec_brk_of_mode_ne s rfl nofun, exec_brk_of_mode_ne s rfl nofun,
    exec_brk_of_mode_ne s rfl nofun, exec_brk_of_mode_ne s rfl nofun, exec_brk_of_mode_ne s rfl nofun⟩

/-! ### The status byte `BRK` pushes -/

/-- With `B` and `I` set the status byte has the bits of 0x34, as bit 5 is forced. -/
theorem asByte_and_0x34 {p : Status} (hb : p.b = true) (hi : p.i = true) : asByte p &&& 0x34 = 0x34 := by
  apply BitVec.eq_of_getLsbD_eq
  intro k hk
  rw [BitVec.getLsbD_and]
  match k, hk with
  | 0, _ | 1, _ | 3, _ | 6, _ | 7, _ => exact Bool.and_false _
  | 2, _ => rw [asByte_getLsbD_two, hi]; rfl
  | 4, _ => rw [asByte_getLsbD_four, hb]; rfl
  | 5, _ => rw [asByte_getLsbD_five]; rfl

/-- Settles O38: the cell of `SP - 2` holds the status byte of the flags after `BRK` has set `B` and `I`. -/
theorem brkPushedStatusByte : Obligations.BrkPushedStatusByte := by
  unfold Obligations.BrkPushedStatusByte
  rintro s t hexec b rfl
  cases hexec
  rw [State.takeSoftwareInterrupt_readByte_status]
  exact ⟨asByte_and_0x34 rfl rfl, asByte_getLsbD_seven _, asByte_getLsbD_six _, asByte_getLsbD_three _,
    asByte_getLsbD_one _, asByte_getLsbD_zero _⟩

/-! ### The run state beside an instruction -/

/-- An outcome with its next state changed; a fault or a refusal is passed on. -/
def mapNext (g : State → State) : Host.Outcome State Fault Refusal → Host.Outcome State Fault Refusal
  | .next t => .next (g t)
  | .fault r => .fault r
  | .refused r => .refused r

theorem mapNext_eq_next {g : State → State} {o : Host.Outcome State Fault Refusal} {t : State} :
    mapNext g o = .next t ↔ ∃ u, o = .next u ∧ t = g u := by
  cases o <;> simp [mapNext, eq_comm]

theorem mapNext_eq_fault {g : State → State} {o : Host.Outcome State Fault Refusal} {f : Fault} :
    mapNext g o = .fault f ↔ o = .fault f := by
  cases o <;> simp [mapNext]

theorem resolveOperandValue_setRunState (m : AddressMode) (b : Byte) (s : State) (r : RunState) :
    resolveOperandValue m b (s.setRunState r) = resolveOperandValue m b s := by
  cases m <;> rfl

/-- Execution commutes with writing the run state (40_execution_cycle.md R61). -/
theorem exec_setRunState (i : Instr) (s : State) (r : RunState) :
    exec i (s.setRunState r) = mapNext (·.setRunState r) (exec i s) := by
  rw [exec_eq_handler, exec_eq_handler]
  cases i.opcode with
  | lda =>
    simp only [execLda, resolveOperandValue_setRunState]
    cases resolveOperandValue i.mode (operandByte i) s <;> rfl
  | brk =>
    by_cases hmode : i.mode = .implicit
    · simp only [execBrkMode, if_pos hmode]
      rfl
    · simp only [execBrkMode, if_neg hmode]
      rfl

/-- No instruction writes the run state. -/
theorem exec_next_runState {i : Instr} {s t : State} (h : exec i s = .next t) : t.runState = s.runState := by
  rcases exec_next h with ⟨-, v, -, rfl⟩ | ⟨-, rfl⟩
  · exact s.loadAccumulator_runState i.mode v
  · obtain ⟨-, -, -, -, -, -, hrun, -⟩ := s.takeSoftwareInterrupt_registers
    exact hrun

/-- Settles O47: execution commutes with writing the run state. -/
theorem runStateDoesNotInfluenceExecution : Obligations.RunStateDoesNotInfluenceExecution := by
  unfold Obligations.RunStateDoesNotInfluenceExecution
  intro i s r
  rw [exec_setRunState]
  exact ⟨fun t hexec => ⟨mapNext_eq_next.mpr ⟨t, hexec, rfl⟩, exec_next_runState hexec⟩,
    fun f => mapNext_eq_fault.symm⟩

end Sys2Proof.Machine
end

section
/-! PROOFS. The cycle and the step (40_execution_cycle.md sections 4 and 5): a step is a cycle and the halt test; what
every step keeps, what none does, and that no flag selects anything. -/

namespace Sys2Proof.Machine

/-! ### A step is a cycle followed by the halt test -/

/-- A turn enters Executing, which the cycle does not see and which the halt test overwrites. -/
theorem turn_eq_mapNext_cycle (s : State) : turn s = mapNext State.leaveExecuting (cycle s) := by
  unfold turn cycle
  cases s.fetchDecode with
  | unimplementedOpcode o => rfl
  | instr i =>
    simp only [exec_setRunState]
    cases exec i s <;> rfl

/-- An unfaulted run's step. -/
theorem step_eq_mapNext_cycle {s : State} (h : ∀ r, s.runState ≠ .faulted r) :
    step s = mapNext State.leaveExecuting (cycle s) := by
  rcases step_cases s with ⟨r, hfaulted, -⟩ | ⟨-, hturn⟩
  · exact absurd hfaulted (h r)
  · rw [hturn, turn_eq_mapNext_cycle]

theorem cycle_of_instr {s : State} {i : Instr} (h : s.fetchDecode = .instr i) : cycle s = exec i s := by
  simp only [cycle, h]

theorem cycle_of_unimplementedOpcode {s : State} {o : Byte} (h : s.fetchDecode = .unimplementedOpcode o) :
    cycle s = .fault (.unimplementedOpcode o s.pc) := by
  simp only [cycle, h]
  rfl

/-- The rejected byte is the one at `pc`. -/
theorem fetchDecode_unimplementedOpcode {s : State} {o : Byte} (h : s.fetchDecode = .unimplementedOpcode o) :
    o = s.readByte s.pc := by
  rcases decode_cases s.decodeExt s.fetch.1 s.fetch.2.1 s.fetch.2.2 with ⟨_, _, -, hdecode⟩ | ⟨-, hdecode⟩
  · cases hdecode.symm.trans h
  · cases hdecode.symm.trans h
    rfl

/-- A cycle executes the decoded instruction, or rejects the byte. -/
theorem cycle_next {s u : State} (h : cycle s = .next u) : ∃ i, s.fetchDecode = .instr i ∧ exec i s = .next u := by
  cases hdecode : s.fetchDecode with
  | instr i => exact ⟨i, rfl, (cycle_of_instr hdecode).symm.trans h⟩
  | unimplementedOpcode o => cases (cycle_of_unimplementedOpcode hdecode).symm.trans h

/-- Settles O48: the step is the cycle with its next state put through the halt test. -/
theorem stepIsCycleThenHaltTest : Obligations.StepIsCycleThenHaltTest := by
  unfold Obligations.StepIsCycleThenHaltTest
  intro s hrun
  rw [step_eq_mapNext_cycle hrun]
  exact ⟨fun t => mapNext_eq_next, fun f => mapNext_eq_fault⟩

/-- Settles O46: the engine's step reads the run state before anything else. -/
theorem faultedRunTakesNoStep : Obligations.FaultedRunTakesNoStep := by
  unfold Obligations.FaultedRunTakesNoStep
  intro s r hfaulted
  simp only [step, engineStep, hfaulted]

/-- Settles O45: the cycle faults at the decode step, and the halt test passes a fault on. -/
theorem stepFaultsOnUnimplementedOpcode : Obligations.StepFaultsOnUnimplementedOpcode := by
  unfold Obligations.StepFaultsOnUnimplementedOpcode
  intro s o hrun hdecode
  have hcycle := cycle_of_unimplementedOpcode hdecode
  refine ⟨fetchDecode_unimplementedOpcode hdecode, ?_, hcycle⟩
  rw [step_eq_mapNext_cycle hrun, hcycle]
  rfl

/-- The halt test as a record update with a decidable condition. -/
theorem State.leaveExecuting_eq (s : State) :
    s.leaveExecuting = { s with runState := if s.pc = s.vectorTarget then .halted else .fetching } := by
  simp [State.leaveExecuting, State.haltCondition, State.setRunState]

/-- Settles O44: a turn is the execution of what was decoded, and then the halt test. -/
theorem stepRunsDecodedInstruction : Obligations.StepRunsDecodedInstruction := by
  unfold Obligations.StepRunsDecodedInstruction
  intro s i hrun hdecode
  obtain ⟨hwf, -, -, -⟩ := decodedInstructionIsWellFormed s.decodeExt _ _ _ i hdecode
  refine ⟨hwf, ?_⟩
  have hexec : exec i { s with runState := .executing } = mapNext (·.setRunState .executing) (exec i s) :=
    exec_setRunState i s .executing
  rw [step_eq_mapNext_cycle hrun, cycle_of_instr hdecode, hexec]
  cases exec i s with
  | next t => exact congrArg _ t.leaveExecuting_eq
  | fault r => rfl
  | refused r => rfl

/-! ### The run state after a step -/

theorem State.leaveExecuting_halted_iff (s : State) : s.leaveExecuting.runState = .halted ↔ s.pc = s.vectorTarget := by
  rw [s.leaveExecuting_eq]
  by_cases h : s.pc = s.vectorTarget <;> simp [h]

theorem State.leaveExecuting_fetching_iff (s : State) :
    s.leaveExecuting.runState = .fetching ↔ s.pc ≠ s.vectorTarget := by
  rw [s.leaveExecuting_eq]
  by_cases h : s.pc = s.vectorTarget <;> simp [h]

/-- Everything a step does when it answers a next state: one load, or the software interrupt, and then the halt test. -/
theorem step_next_cases {s t : State} (h : step s = .next t) :
    (∃ i v, s.fetchDecode = .instr i ∧ i.opcode = .lda ∧ t = (s.loadAccumulator i.mode v).leaveExecuting) ∨
      (s.fetchDecode = .instr .brk ∧ t = s.takeSoftwareInterrupt.leaveExecuting) := by
  rcases step_cases s with ⟨r, -, hfault⟩ | ⟨-, hturn⟩
  · cases hfault.symm.trans h
  · rw [hturn, turn_eq_mapNext_cycle] at h
    obtain ⟨u, hcycle, rfl⟩ := mapNext_eq_next.mp h
    obtain ⟨i, hdecode, hexec⟩ := cycle_next hcycle
    rcases exec_next hexec with ⟨hop, v, -, rfl⟩ | ⟨rfl, rfl⟩
    · exact .inl ⟨i, v, hdecode, hop, rfl⟩
    · exact .inr ⟨hdecode, rfl⟩

/-- Settles O49: every next state of a step has been through the halt test. -/
theorem haltTestAfterEveryStep : Obligations.HaltTestAfterEveryStep := by
  unfold Obligations.HaltTestAfterEveryStep
  intro s t hstep
  rcases step_next_cases hstep with ⟨i, v, -, -, rfl⟩ | ⟨-, rfl⟩
  · exact ⟨State.leaveExecuting_halted_iff _, State.leaveExecuting_fetching_iff _⟩
  · exact ⟨State.leaveExecuting_halted_iff _, State.leaveExecuting_fetching_iff _⟩

/-! ### The invariant -/

/-- The halt test establishes the invariant's clause on Halted and leaves the others. -/
theorem State.leaveExecuting_inv {s : State} (hmem : s.mem.wf = true) (hext : DecodeExt.wf s.decodeExt = true)
    (hflags : ¬ (s.p.z = true ∧ s.p.n = true)) : s.leaveExecuting.Inv :=
  ⟨hmem, hext, hflags, s.leaveExecuting_halted_iff.mp⟩

/-- Settles O51: a load sets `Z` and `N` from one value and stores nothing; the interrupt's writes keep the canonical form
and leave `Z` and `N`. -/
theorem stepKeepsInvariant : Obligations.StepKeepsInvariant := by
  unfold Obligations.StepKeepsInvariant
  rintro s t ⟨hmem, hext, hflags, -⟩ hstep
  rcases step_next_cases hstep with ⟨i, v, -, -, rfl⟩ | ⟨-, rfl⟩
  · exact State.leaveExecuting_inv hmem hext (not_zeroFlag_and_negativeFlag v)
  · obtain ⟨-, -, -, -, -, hp, -, hd⟩ := s.takeSoftwareInterrupt_registers
    exact State.leaveExecuting_inv (State.takeSoftwareInterrupt_wf hmem) (hd.symm ▸ hext) (hp.symm ▸ hflags)

/-! ### The frame of a step -/

/-- The interrupt writes no cell outside the stack page. -/
theorem State.takeSoftwareInterrupt_readByte_of_not_stackPage (s : State) {addr : Word}
    (h : regionOf addr ≠ .stackPage) : s.takeSoftwareInterrupt.readByte addr = s.readByte addr := by
  have hcell : ∀ sp, addr ≠ stackAddr sp := fun sp hsame => h (hsame ▸ regionOf_stackAddr sp)
  exact s.takeSoftwareInterrupt_readByte_of_ne (hcell _) (hcell _) (hcell _)

/-- Settles O52: the two effects a step can have, each by the frame of its operation. -/
theorem stepFrameOfTheWholeMachine : Obligations.StepFrameOfTheWholeMachine := by
  unfold Obligations.StepFrameOfTheWholeMachine
  intro s t hstep
  rcases step_next_cases hstep with ⟨i, v, -, -, rfl⟩ | ⟨hbrk, rfl⟩
  case inl => exact ⟨rfl, rfl, rfl, rfl, rfl, rfl, id, id, fun _ _ => rfl, rfl, fun _ => ⟨rfl, rfl, rfl, rfl⟩⟩
  case inr =>
    obtain ⟨-, hx, hy, -, -, hp, -, hd⟩ := s.takeSoftwareInterrupt_registers
    simp only [State.leaveExecuting_x, State.leaveExecuting_y, State.leaveExecuting_p, State.leaveExecuting_decodeExt,
      State.leaveExecuting_readByte, State.leaveExecuting_vectorTarget, hp]
    exact ⟨hx, hy, rfl, rfl, rfl, hd, fun _ => rfl, fun _ => rfl,
      fun addr => s.takeSoftwareInterrupt_readByte_of_not_stackPage, s.takeSoftwareInterrupt_vectorTarget,
      fun hother => absurd hbrk hother⟩

/-! ### Fetch after writes -/

/-- Settles O50: the three addresses differ, so each write is seen at its own and at no other one. -/
theorem fetchSeesEarlierWrites : Obligations.FetchSeesEarlierWrites := by
  unfold Obligations.FetchSeesEarlierWrites
  intro s o b1
  constructor
  · simp [State.fetch, State.readByte_writeByte]
  · simp [State.fetchDecode, State.fetch, State.readByte_writeByte]

/-! ### No flag selects anything -/

/-- Two states with the same registers, run state, extension and cells, but for the flags and one cell. -/
structure AgreeButFlagsAndCell (cell : Word) (t' t : State) : Prop where
  a : t'.a = t.a
  x : t'.x = t.x
  y : t'.y = t.y
  sp : t'.sp = t.sp
  pc : t'.pc = t.pc
  runState : t'.runState = t.runState
  decodeExt : t'.decodeExt = t.decodeExt
  readByte : ∀ addr, addr ≠ cell → t'.readByte addr = t.readByte addr

/-- Where the one cell lies in the stack page, the vector target agrees and the halt test answers alike. -/
theorem AgreeButFlagsAndCell.leaveExecuting {sp : Byte} {t' t : State} (h : AgreeButFlagsAndCell (stackAddr sp) t' t) :
    AgreeButFlagsAndCell (stackAddr sp) t'.leaveExecuting t.leaveExecuting := by
  have hvector : t'.vectorTarget = t.vectorTarget := by
    rw [State.vectorTarget_eq, State.vectorTarget_eq, h.readByte 0xFFFF (ivec_succ_ne_stackAddr sp),
      h.readByte 0xFFFE (ivec_ne_stackAddr sp)]
  have hrun : t'.leaveExecuting.runState = t.leaveExecuting.runState := by
    rw [State.leaveExecuting_eq, State.leaveExecuting_eq, h.pc, hvector]
  exact { h with runState := hrun }

theorem resolveOperandValue_setP (m : AddressMode) (b : Byte) (s : State) (q : Status) :
    resolveOperandValue m b (s.setP q) = resolveOperandValue m b s := by
  cases m <;> rfl

/-- The interrupt under other flags: only the pushed status byte shows them. -/
theorem State.takeSoftwareInterrupt_setP (s : State) (q : Status) :
    AgreeButFlagsAndCell (stackAddr (s.sp - 2)) (s.setP q).takeSoftwareInterrupt s.takeSoftwareInterrupt := by
  obtain ⟨ha, hx, hy, hsp, hpc, -, hrun, hd⟩ := s.takeSoftwareInterrupt_registers
  obtain ⟨ha', hx', hy', hsp', hpc', -, hrun', hd'⟩ := (s.setP q).takeSoftwareInterrupt_registers
  refine ⟨ha'.trans ha.symm, hx'.trans hx.symm, hy'.trans hy.symm, hsp'.trans hsp.symm, hpc'.trans hpc.symm,
    hrun'.trans hrun.symm, hd'.trans hd.symm, fun addr hne => ?_⟩
  rw [State.takeSoftwareInterrupt_readByte, State.takeSoftwareInterrupt_readByte, State.setP_sp, if_neg hne, if_neg hne]
  rfl

/-- An instruction that answers a next state answers one under any other flags, alike but for the flags and the cell of
the pushed status byte. -/
theorem exec_setP_next {i : Instr} {s t : State} (q : Status) (h : exec i s = .next t) :
    ∃ t', exec i (s.setP q) = .next t' ∧ AgreeButFlagsAndCell (stackAddr (s.sp - 2)) t' t := by
  rcases exec_next h with ⟨hop, v, hv, rfl⟩ | ⟨rfl, rfl⟩
  · refine ⟨(s.setP q).loadAccumulator i.mode v, ?_, rfl, rfl, rfl, rfl, rfl, rfl, rfl, fun _ _ => rfl⟩
    rw [exec_eq_execLda _ hop, execLda_next]
    exact ⟨v, (resolveOperandValue_setP _ _ s q).trans hv, rfl⟩
  · exact ⟨_, exec_brk (s.setP q), s.takeSoftwareInterrupt_setP q⟩

/-- The same of a cycle: fetch and decode read no flag. -/
theorem cycle_setP_next {s u : State} (q : Status) (h : cycle s = .next u) :
    ∃ u', cycle (s.setP q) = .next u' ∧ AgreeButFlagsAndCell (stackAddr (s.sp - 2)) u' u := by
  obtain ⟨i, hdecode, hexec⟩ := cycle_next h
  obtain ⟨u', hexec', hagree⟩ := exec_setP_next q hexec
  exact ⟨u', (cycle_of_instr (s := s.setP q) hdecode).trans hexec', hagree⟩

/-- A cycle faults alike under any flags: at the decode step, or on account of the pair. -/
theorem cycle_setP_fault_iff (s : State) (q : Status) (f : Fault) :
    cycle (s.setP q) = .fault f ↔ cycle s = .fault f := by
  cases hdecode : s.fetchDecode with
  | unimplementedOpcode o =>
    rw [cycle_of_unimplementedOpcode hdecode, cycle_of_unimplementedOpcode (s := s.setP q) hdecode, State.setP_pc]
  | instr i =>
    rw [cycle_of_instr hdecode, cycle_of_instr (s := s.setP q) hdecode, exec_fault_iff, exec_fault_iff, State.setP_pc]

/-- Settles O53: the cycles agree, and so do the halt tests after them; a faulted run is the same fault whatever its
flags. -/
theorem flagsSelectNothing : Obligations.FlagsSelectNothing := by
  unfold Obligations.FlagsSelectNothing
  intro s q
  by_cases hrun : ∃ r, s.runState = .faulted r
  case pos =>
    obtain ⟨r, hfaulted⟩ := hrun
    rw [faultedRunTakesNoStep s r hfaulted, faultedRunTakesNoStep (s.setP q) r hfaulted]
    exact ⟨fun _ hstep => (nomatch hstep), fun _ => Iff.rfl⟩
  case neg =>
    have hunfaulted : ∀ r, s.runState ≠ .faulted r := fun r hr => hrun ⟨r, hr⟩
    rw [step_eq_mapNext_cycle hunfaulted, step_eq_mapNext_cycle (s := s.setP q) hunfaulted]
    refine ⟨fun t hstep => ?next, fun f => ?fault⟩
    case next =>
      obtain ⟨u, hcycle, rfl⟩ := mapNext_eq_next.mp hstep
      obtain ⟨u', hcycle', hagree⟩ := cycle_setP_next q hcycle
      obtain ⟨ha, hx, hy, hsp, hpc, hstate, hd, hcells⟩ := hagree.leaveExecuting
      exact ⟨_, mapNext_eq_next.mpr ⟨u', hcycle', rfl⟩, ha, hx, hy, hsp, hpc, hstate, hd, hcells⟩
    case fault => rw [mapNext_eq_fault, mapNext_eq_fault, cycle_setP_fault_iff]

/-! ### The bytes of the base table -/

theorem fetchDecode_of_00 {s : State} (h : s.readByte s.pc = 0x00) : s.fetchDecode = .instr .brk := by
  rw [State.fetchDecode, State.fetch, h]
  exact decode_00 _ _ _

theorem fetchDecode_of_A9 {s : State} (h : s.readByte s.pc = 0xA9) :
    s.fetchDecode = .instr (.ldaImmediate (s.readByte (s.pc + 1))) := by
  rw [State.fetchDecode, State.fetch, h]
  exact decode_A9 _ _ _

theorem cycle_of_00 {s : State} (h : s.readByte s.pc = 0x00) : cycle s = .next s.takeSoftwareInterrupt :=
  cycle_of_instr (fetchDecode_of_00 h)

theorem cycle_of_A9 {s : State} (h : s.readByte s.pc = 0xA9) :
    cycle s = .next (s.loadAccumulator .immediate (s.readByte (s.pc + 1))) :=
  cycle_of_instr (fetchDecode_of_A9 h)

/-- The interrupt leaves `pc` at the vector target, so the halt condition holds after it (42_system.md R78). -/
theorem State.takeSoftwareInterrupt_leaveExecuting (s : State) :
    s.takeSoftwareInterrupt.leaveExecuting = s.takeSoftwareInterrupt.setRunState .halted := by
  obtain ⟨-, -, -, -, hpc, -, -, -⟩ := s.takeSoftwareInterrupt_registers
  rw [State.leaveExecuting_eq, if_pos (hpc.trans s.takeSoftwareInterrupt_vectorTarget.symm)]
  rfl

/-- Settles O40: the step is the interrupt and then the halt test, which holds. -/
theorem stepOverBrkHalts : Obligations.StepOverBrkHalts := by
  unfold Obligations.StepOverBrkHalts
  intro s hrun hbyte
  obtain ⟨-, -, -, hsp, hpc, -, -, -⟩ := s.takeSoftwareInterrupt_registers
  refine ⟨s.takeSoftwareInterrupt.setRunState .halted, ?_, rfl, hpc, s.takeSoftwareInterrupt_vectorTarget, hsp⟩
  rw [step_eq_mapNext_cycle hrun, cycle_of_00 hbyte, mapNext, State.takeSoftwareInterrupt_leaveExecuting]

/-- Settles O42: the base bytes have a cycle that answers a next state; the decode step rejects every other byte. -/
theorem baseMachineFaultsExactlyOnAbsentBytes : Obligations.BaseMachineFaultsExactlyOnAbsentBytes := by
  unfold Obligations.BaseMachineFaultsExactlyOnAbsentBytes
  intro s hext hrun
  refine ⟨fun hbyte => ?present, fun h0 hA9 => ?absent⟩
  case present =>
    rw [step_eq_mapNext_cycle hrun]
    rcases hbyte with h0 | hA9
    · exact ⟨_, mapNext_eq_next.mpr ⟨_, cycle_of_00 h0, rfl⟩⟩
    · exact ⟨_, mapNext_eq_next.mpr ⟨_, cycle_of_A9 hA9, rfl⟩⟩
  case absent =>
    have hdecode : s.fetchDecode = .unimplementedOpcode (s.readByte s.pc) :=
      decode_eq_unimplementedOpcode.mpr ⟨h0, hA9, hext ▸ rfl⟩
    obtain ⟨-, hstep, -⟩ := stepFaultsOnUnimplementedOpcode s _ hrun hdecode
    exact hstep

end Sys2Proof.Machine
end

section
/-! PROOFS. Runs of the base bytes: a run that meets `BRK` halts, a run over 0xA9 alone never ends, and a run of a loaded
program always does (40_execution_cycle.md section 5, 42_system.md). -/

namespace Sys2Proof.Machine

/-! ### The first cycle of a run -/

/-- A run over the byte 0x00 is, for every bound, the state after the software interrupt, Halted. -/
theorem run_succ_of_00 {s : State} (k : Nat) (h : s.readByte s.pc = 0x00) :
    run (k + 1) s = s.takeSoftwareInterrupt.setRunState .halted := by
  apply run_succ_of_turn_halted
  rw [turn_eq_mapNext_cycle, cycle_of_00 (s := s.setRunState .fetching) h, mapNext,
    State.takeSoftwareInterrupt_leaveExecuting]
  rfl

/-- A run over the byte 0xA9 loads the next byte; it halts where `pc + 2` is the vector target and otherwise goes on from
there (95_test_vectors.md P5 is the halt). -/
theorem run_succ_of_A9 {s : State} (k : Nat) (h : s.readByte s.pc = 0xA9) :
    run (k + 1) s =
      if s.pc + 2 = s.vectorTarget
      then (s.loadAccumulator .immediate (s.readByte (s.pc + 1))).setRunState .halted
      else run k (s.loadAccumulator .immediate (s.readByte (s.pc + 1))) := by
  have hturn : turn (s.setRunState .fetching) =
      .next ((s.loadAccumulator .immediate (s.readByte (s.pc + 1))).setRunState
        (if s.pc + 2 = s.vectorTarget then .halted else .fetching)) := by
    rw [turn_eq_mapNext_cycle, cycle_of_A9 (s := s.setRunState .fetching) h, mapNext, State.leaveExecuting_eq]
    rfl
  split at hturn
  case isTrue htarget => rw [if_pos htarget, run_succ_of_turn_halted k hturn]
  case isFalse htarget => rw [if_neg htarget, run_succ_of_turn_fetching k hturn]

/-- Settles O58: the first cycle is the interrupt, which ends the run. -/
theorem runOverBrkHalts : Obligations.RunOverBrkHalts := by
  unfold Obligations.RunOverBrkHalts
  intro s hbyte
  have hhalted : (run 1 s).runState = .halted := by rw [run_succ_of_00 0 hbyte, State.setRunState_runState]
  exact ⟨⟨1, hhalted⟩, fun k => run_succ_of_00 k hbyte⟩

/-! ### A run that never ends -/

/-- With 0xA9 in every cell the vector target is odd, so an even `pc` never meets it. -/
theorem add_two_ne_vectorTarget {s : State} (hcells : ∀ addr, s.readByte addr = 0xA9) (heven : s.pc.toNat % 2 = 0) :
    s.pc + 2 ≠ s.vectorTarget := by
  have htarget : s.vectorTarget = 0xA9A9 := by
    rw [State.vectorTarget_eq, hcells, hcells]
    decide
  rw [htarget]
  bv_omega

theorem add_two_even {pc : Word} (h : pc.toNat % 2 = 0) : (pc + 2).toNat % 2 = 0 := by
  bv_omega

/-- Every cycle of such a run is a load that advances `pc` by 2 and comes back to Fetching: by induction on the number of
cycles. -/
theorem run_over_A9 {s : State} (hcells : ∀ addr, s.readByte addr = 0xA9) (heven : s.pc.toNat % 2 = 0) (k : Nat) :
    (run k s).runState = .fetching ∧ (run k s).pc = s.pc + BitVec.ofNat 16 (2 * k) := by
  induction k generalizing s with
  | zero => exact ⟨rfl, (BitVec.add_zero s.pc).symm⟩
  | succ k ih =>
    rw [run_succ_of_A9 k (hcells s.pc), if_neg (add_two_ne_vectorTarget hcells heven)]
    obtain ⟨hrun, hpc⟩ := ih (s := s.loadAccumulator .immediate (s.readByte (s.pc + 1))) hcells (add_two_even heven)
    refine ⟨hrun, hpc.trans ?_⟩
    calc s.pc + 2 + BitVec.ofNat 16 (2 * k)
        = s.pc + (BitVec.ofNat 16 2 + BitVec.ofNat 16 (2 * k)) := BitVec.add_assoc _ _ _
      _ = s.pc + BitVec.ofNat 16 (2 * (k + 1)) := by rw [← BitVec.ofNat_add, Nat.mul_succ, Nat.add_comm]

/-- Settles O57: the run is Fetching after every number of cycles. -/
theorem runOverAllA9NeverEnds : Obligations.RunOverAllA9NeverEnds := by
  unfold Obligations.RunOverAllA9NeverEnds
  intro s hcells heven
  obtain ⟨hrun, hpc⟩ := forall_and.mp fun k => run_over_A9 hcells heven k
  refine ⟨fun k r hfaulted => ?safe, fun ⟨k, hhalted⟩ => ?unended, hpc⟩
  case safe => cases (hrun k).symm.trans hfaulted
  case unended => cases (hrun k).symm.trans hhalted

/-! ### A loaded program's run ends -/

/-- In the base machine `pc` climbs by 2 until the run ends, and the zero cell 0xFFFE ends it with a `BRK` at the latest:
by induction on the cycles left to the top of memory. -/
theorem run_ended_of_zero_top {s : State} {k : Nat} (hext : s.decodeExt = []) (htop : s.readByte 0xFFFE = 0x00)
    (hleft : s.pc.toNat + 2 * k = 65536) : (run k s).runState.ended = true := by
  induction k generalizing s with
  | zero =>
    have := s.pc.isLt
    omega
  | succ k ih =>
    by_cases h0 : s.readByte s.pc = 0x00
    · rw [run_succ_of_00 k h0]
      rfl
    by_cases hA9 : s.readByte s.pc = 0xA9
    · have hbelow : s.pc ≠ 0xFFFE := fun hpc => h0 (hpc ▸ htop)
      rw [run_succ_of_A9 k hA9]
      split
      case isTrue => rfl
      case isFalse =>
        apply ih (s := s.loadAccumulator .immediate (s.readByte (s.pc + 1))) hext htop
        have hadvance : (s.pc + 2).toNat + 2 * k = 65536 := by bv_omega
        exact hadvance
    · obtain ⟨-, -, hfaults⟩ := absentOpcodeByteIsUnimplemented
      rw [hfaults s k h0 hA9 (hext ▸ rfl)]
      rfl

/-- A program that boots fits, and its state is the construction with the bytes stored from 0x0200. -/
theorem boot_eq_loaded {cfg : Config} {bytes : List Byte} {s : State} (h : boot cfg bytes = .loaded s) :
    bytes.length ≤ 65022 ∧ s = (State.construct cfg).storeBytes 0x0200 bytes := by
  rcases Nat.lt_or_ge 65022 bytes.length with hlong | hfits
  · cases (loaderRejectsProgramTooLarge _ bytes hlong).symm.trans h
  · cases (State.loadProgram_of_le hfits).symm.trans h
    exact ⟨hfits, rfl⟩

/-- Settles O56: a loaded program leaves the vector slot zero, and 32512 cycles of 2 bytes lead from 0x0200 to the top of
memory. -/
theorem everyLoadedProgramRunEnds : Obligations.EveryLoadedProgramRunEnds := by
  unfold Obligations.EveryLoadedProgramRunEnds
  intro cfg bytes s hext hboot
  obtain ⟨hfits, rfl⟩ := boot_eq_loaded hboot
  obtain ⟨-, -, -, -, hpc, -, -, hd⟩ := (State.construct cfg).storeBytes_registers 0x0200 bytes
  have htop : ((State.construct cfg).storeBytes 0x0200 bytes).readByte 0xFFFE = 0x00 := by
    have hslot : (0xFFFE : Word).toNat = 0xFFFE := rfl
    rw [State.storeProgram_readByte _ hfits, hslot, if_neg (by omega), State.construct_readByte]
  have hleft : ((State.construct cfg).storeBytes 0x0200 bytes).pc.toNat + 2 * 32512 = 65536 := by
    have hstart : (State.construct cfg).pc.toNat = 0x0200 := rfl
    rw [hpc, hstart]
  exact run_ended_of_zero_top (hd.trans hext) htop hleft

end Sys2Proof.Machine
end
